-- ==== Sys2Proof/Word.lean ====
section
/-! DEFINITION. The word types of the FCC: every register is a bit vector of the width its rule in 10_state.md gives. -/

namespace Sys2Proof

/-- One payload byte (R23). -/
abbrev Byte := BitVec 8

/-- A command word, a status word, an identifier (R21, R28, R29). -/
abbrev Word32 := BitVec 32

/-- The mirror and the 64-bit operand and result registers (R24, R30 to R34). -/
abbrev Word64 := BitVec 64

end Sys2Proof
end

