-- ==== Sys2Proof/Config.lean ====
section
/-! DEFINITION. The implementation parameters of R7 and R37, fixed for a model instance and not state, and the one free
value the spec draws (LOAD_MIRROR, R101). -/

namespace Sys2Proof.Config

/-- The three message kinds (R7, R27). -/
inductive Kind where
  | defaultKind
  | currentSensor
  | marineSensor
deriving DecidableEq, Repr, Inhabited

/-- The parameters R7 leaves OPEN. A meaning that reads one takes the record as an argument, so that what it does
is said for every configuration. -/
structure Params where
  /-- `messageKindOf`: a total function from identifiers to kinds (R7, D27, I1). -/
  messageKindOf : Word32 → Kind
  /-- `MARINE_ERR_BYTE`: a payload byte index in 0..6 (R7, D22, I3). -/
  marineErrByte : Fin 7
  /-- `DIAG_ACTIVE`: whether diagnostics events are emitted (R7, D31, I4). -/
  diagActive : Bool
deriving Inhabited

/-- The configuration the platform fixed before the first command (R251). It has no body: the three parameters are
OPEN in R7, and nothing in Lean can evaluate them. Log entry 2. -/
opaque platform : Params

/-- The draw `LOAD_MIRROR` (R7, R101, D29, I2): an unconstrained 64-bit value for each LOAD. No body; the argument
counts the LOADs performed, so that each draw is a fresh one. Log entry 3. -/
opaque loadMirror : Nat → Word64

/-- `NV_REAL`, the real a failed quantizer decode returns: decided as +0.0 (R7, D19). Log entry 4. -/
def nvReal : Word64 := 0x0000000000000000#64

end Sys2Proof.Config
end

