-- ==== Sys2Proof/Syntax.lean ====
section
/-! DEFINITION. The fifteen commands of the opcode map (R75), each with the command-word fields it reads (R74).
A field a command does not read is no part of its syntax. START, LEN and NB are numbers: their bounds come from the
widths of the word's fields (R70) and stand in WellFormed. -/

namespace Sys2Proof

/-- The unit of a field descriptor, command-word bit U (R70): 0 = bits, 1 = bytes. -/
inductive FieldUnit where
  | bits
  | bytes
deriving DecidableEq, Repr, Inhabited

/-- The target width of DEC's result, command-word field TW (R73). -/
inductive TargetWidth where
  | w8
  | w16
  | w32
  | w64
deriving DecidableEq, Repr, Inhabited

/-- One constructor per row of the opcode table (R75). -/
inductive Instr where
  /-- NEW: construct a zeroed frame (R100). -/
  | new
  /-- LOAD: construct a frame from an existing payload (R101). -/
  | load
  /-- TOMIR: rebuild the mirror from the payload (R102). -/
  | toMir
  /-- FROMMIR: rebuild the payload from the mirror (R103). -/
  | fromMir
  /-- ENC: bit-range encode, with SG the signed-value mark (R125). -/
  | enc (unit : FieldUnit) (signed : Bool) (start len : Nat)
  /-- DEC: bit-range decode (R127). -/
  | dec (unit : FieldUnit) (tw : TargetWidth) (start len : Nat)
  /-- ENCB: legacy sequential encode (R131). -/
  | encb (nb : Nat)
  /-- DECB: legacy sequential decode (R132). -/
  | decb (nb : Nat)
  /-- QENC: quantize and encode, bit-range variant (R155). -/
  | qenc (unit : FieldUnit) (start len : Nat)
  /-- QDEC: decode and dequantize, bit-range variant (R156). -/
  | qdec (unit : FieldUnit) (start len : Nat)
  /-- QENCB: quantize and encode, legacy byte variant (R158). -/
  | qencb (nb : Nat)
  /-- QDECB: decode and dequantize, legacy byte variant (R159). -/
  | qdecb (nb : Nat)
  /-- GETERR: read the error subfield (R183). -/
  | getErr
  /-- SETERR: write the error subfield (R184). -/
  | setErr
  /-- HDR: pack the current-sensor header (R201). -/
  | hdr
deriving DecidableEq, Repr, Inhabited

end Sys2Proof
end

