-- ==== Sys2Proof/WellFormed.lean ====
section
/-! DEFINITION. Which instructions have an encoding: START and LEN fit 7 bits and NB fits 3 (R70, R72, R79). -/

namespace Sys2Proof

/-- START and LEN range over 0..127 in their unit (R71, R79). -/
def fieldDescriptorFits (start len : Nat) : Bool := decide (start ≤ 127) && decide (len ≤ 127)

/-- NB ranges over 0..7 (R71, R79). -/
def byteCountFits (nb : Nat) : Bool := decide (nb ≤ 7)

/-- An instruction that a command word can hold. -/
def Instr.wf : Instr → Bool
  | .new => true
  | .load => true
  | .toMir => true
  | .fromMir => true
  | .enc _ _ start len => fieldDescriptorFits start len
  | .dec _ _ start len => fieldDescriptorFits start len
  | .encb nb => byteCountFits nb
  | .decb nb => byteCountFits nb
  | .qenc _ start len => fieldDescriptorFits start len
  | .qdec _ start len => fieldDescriptorFits start len
  | .qencb nb => byteCountFits nb
  | .qdecb nb => byteCountFits nb
  | .getErr => true
  | .setErr => true
  | .hdr => true

end Sys2Proof
end

