-- ==== Sys2Proof/Decode.lean ====
section
/-! DEFINITION. The decoder of 32-bit command words (R70, R75 to R78), total and rejecting by name, and after it the
encoder (R82), which emits 0 in every field the command does not read (R79). -/

namespace Sys2Proof

/-- Why a word names no command (R76). Both reasons have the same effect on the FCC. -/
inductive IllegalWord where
  /-- RSV, bits 31:26, is not 0. -/
  | reservedBitsSet
  /-- OP is 0x00 or in 0x10..0x1F. -/
  | opcodeUnassigned
deriving DecidableEq, Repr

/-- What a command word decodes to: every one of the 2^32 words is a command or illegal (R76). -/
inductive Decoded where
  | instr (i : Instr)
  | illegal (why : IllegalWord)
deriving DecidableEq, Repr

/-- OP, bits 4:0 (R70). -/
def opField (w : Word32) : BitVec 5 := w.extractLsb' 0 5

/-- U, bit 5 (R70). -/
def unitField (w : Word32) : FieldUnit := if w.getLsbD 5 then .bytes else .bits

/-- SG, bit 6 (R70). -/
def signedField (w : Word32) : Bool := w.getLsbD 6

/-- TW, bits 8:7 (R70, R73). -/
def targetWidthField (w : Word32) : TargetWidth :=
  match w.getLsbD 8, w.getLsbD 7 with
  | false, false => .w8
  | false, true => .w16
  | true, false => .w32
  | true, true => .w64

/-- START, bits 15:9, unsigned (R70, R71). -/
def startField (w : Word32) : Nat := (w.extractLsb' 9 7).toNat

/-- LEN, bits 22:16, unsigned (R70, R71). -/
def lenField (w : Word32) : Nat := (w.extractLsb' 16 7).toNat

/-- NB, bits 25:23, unsigned (R70, R71). -/
def byteCountField (w : Word32) : Nat := (w.extractLsb' 23 3).toNat

/-- RSV, bits 31:26 (R70). -/
def reservedField (w : Word32) : BitVec 6 := w.extractLsb' 26 6

/-- The decode procedure of R77. -/
def decode (w : Word32) : Decoded :=
  if reservedField w ≠ 0 then .illegal .reservedBitsSet
  else match (opField w).toNat with
    | 0x01 => .instr .new
    | 0x02 => .instr .load
    | 0x03 => .instr .toMir
    | 0x04 => .instr .fromMir
    | 0x05 => .instr (.enc (unitField w) (signedField w) (startField w) (lenField w))
    | 0x06 => .instr (.dec (unitField w) (targetWidthField w) (startField w) (lenField w))
    | 0x07 => .instr (.encb (byteCountField w))
    | 0x08 => .instr (.decb (byteCountField w))
    | 0x09 => .instr (.qenc (unitField w) (startField w) (lenField w))
    | 0x0A => .instr (.qdec (unitField w) (startField w) (lenField w))
    | 0x0B => .instr (.qencb (byteCountField w))
    | 0x0C => .instr (.qdecb (byteCountField w))
    | 0x0D => .instr .getErr
    | 0x0E => .instr .setErr
    | 0x0F => .instr .hdr
    | _ => .illegal .opcodeUnassigned

/-- The instruction a decoding holds, if it is one. -/
def Decoded.instr? : Decoded → Option Instr
  | .instr i => some i
  | .illegal _ => none

/-- The instruction the decoder reads from the word `w`, its bits numbered as the opcode table numbers them: bit 0 is
the least significant bit of the one 32-bit word (R78), and every bit from `nbits` up is 0. -/
def decodeTableWord (nbits w : Nat) : Option Instr :=
  (decode (BitVec.ofNat 32 (w % 2 ^ nbits))).instr?

/-- The opcode numbers of R75. -/
def Instr.opcode : Instr → Nat
  | .new => 0x01
  | .load => 0x02
  | .toMir => 0x03
  | .fromMir => 0x04
  | .enc .. => 0x05
  | .dec .. => 0x06
  | .encb _ => 0x07
  | .decb _ => 0x08
  | .qenc .. => 0x09
  | .qdec .. => 0x0A
  | .qencb _ => 0x0B
  | .qdecb _ => 0x0C
  | .getErr => 0x0D
  | .setErr => 0x0E
  | .hdr => 0x0F

/-- The bit U stands for (R70). -/
def FieldUnit.code : FieldUnit → Nat
  | .bits => 0
  | .bytes => 1

/-- The two bits TW stands for (R73). -/
def TargetWidth.code : TargetWidth → Nat
  | .w8 => 0
  | .w16 => 1
  | .w32 => 2
  | .w64 => 3

/-- The encoding formula of R82. -/
def encodeFields (op u sg tw start len nb : Nat) : Word32 :=
  BitVec.ofNat 32 op ||| BitVec.ofNat 32 u <<< 5 ||| BitVec.ofNat 32 sg <<< 6 ||| BitVec.ofNat 32 tw <<< 7
    ||| BitVec.ofNat 32 start <<< 9 ||| BitVec.ofNat 32 len <<< 16 ||| BitVec.ofNat 32 nb <<< 23

/-- The command word of an instruction: R82, with 0 in every field the command does not read (R79). -/
def encode (i : Instr) : Word32 :=
  match i with
  | .enc unit signed start len => encodeFields i.opcode unit.code signed.toNat 0 start len 0
  | .dec unit tw start len => encodeFields i.opcode unit.code 0 tw.code start len 0
  | .encb nb => encodeFields i.opcode 0 0 0 0 0 nb
  | .decb nb => encodeFields i.opcode 0 0 0 0 0 nb
  | .qenc unit start len => encodeFields i.opcode unit.code 0 0 start len 0
  | .qdec unit start len => encodeFields i.opcode unit.code 0 0 start len 0
  | .qencb nb => encodeFields i.opcode 0 0 0 0 0 nb
  | .qdecb nb => encodeFields i.opcode 0 0 0 0 0 nb
  | .new => encodeFields i.opcode 0 0 0 0 0 0
  | .load => encodeFields i.opcode 0 0 0 0 0 0
  | .toMir => encodeFields i.opcode 0 0 0 0 0 0
  | .fromMir => encodeFields i.opcode 0 0 0 0 0 0
  | .getErr => encodeFields i.opcode 0 0 0 0 0 0
  | .setErr => encodeFields i.opcode 0 0 0 0 0 0
  | .hdr => encodeFields i.opcode 0 0 0 0 0 0

end Sys2Proof
end

