-- ==== Sys2Proof/Machine/State.lean ====
section
/-! DEFINITION. The FCC's architectural state (R20 to R36), the model's own ports beside it (host inputs, host read data,
diagnostics events, the draw counter), the reasons a step can stop, and the state after reset (R39). -/

namespace Sys2Proof.Machine

/-- The frame payload and the PIN operand registers: eight 8-bit registers indexed 0..7 (R23, R36). Log entry 9. -/
abbrev Payload := Vector Byte 8

/-- The eight registers all zero. -/
def Payload.zero : Payload := Vector.replicate 8 0#8

/-- The status codes of STATUS.CODE (R220). -/
inductive Code where
  | ok
  | bounds
  | domain
  | ambZero
  | illegal
deriving DecidableEq, Repr, Inhabited

/-- The two warning events of the diagnostics port (R41, R224, R227). -/
inductive Warning where
  | signed
  | overlap
deriving DecidableEq, Repr, Inhabited

/-- One thing the outside world does to the FCC between commands (R11, R57, R80, R250). -/
inductive HostAction where
  /-- A host write of `width` bits at a byte offset from the base; the data are the low `width` bits. -/
  | write (offset width : Nat) (data : Word64)
  /-- A host read of `width` bits at a byte offset from the base. -/
  | read (offset width : Nat)
  /-- The reset input is asserted (R250). -/
  | reset
  /-- An agent other than the host uses the FCC concurrently (R60). -/
  | concurrentAgent
deriving DecidableEq, Repr, Inhabited

/-- The FCC has no fault: it takes no trap, and every failure is a status code (R229). No constructor: nothing raises
one. Log entry 18. -/
inductive Fault where
deriving DecidableEq, Repr

/-- Why a step has no meaning. -/
inductive Refusal where
  /-- Raised by `exec` for an instruction without a meaning: none is left. Safe. -/
  | notModelled (mnemonic : String)
  /-- Raised by a host access at an offset or a width that R56 does not define (R57: a model refuses it). Safe. -/
  | undefinedAccess (offset width : Nat)
  /-- Raised by a second agent that uses the FCC concurrently (R60: a model refuses a second agent). Safe. -/
  | concurrentAgent
deriving DecidableEq, Repr

/-- The FCC's registers under their own names, then the model's own ports. -/
structure State where
  /-- ID, the frame identifier (R21). -/
  id : Word32
  /-- EXT, the extended-format flag (R22). -/
  ext : BitVec 1
  /-- PAYLOAD[0..7] (R23). -/
  payload : Payload
  /-- MIRROR, the bit mirror, a register of its own (R24). -/
  mirror : Word64
  /-- WCUR, the legacy write cursor (R25). -/
  wcur : BitVec 3
  /-- RCUR, the legacy read cursor (R26). -/
  rcur : BitVec 3
  /-- STATUS, the outcome of the last command (R29). -/
  status : Word32
  /-- RESULT, the integer result (R30). -/
  result : Word64
  /-- QRESULT, the binary64 result (R31). -/
  qresult : Word64
  /-- OPA, the first integer operand (R32). -/
  opa : Word64
  /-- OPB, the second integer operand (R33). -/
  opb : Word64
  /-- QV, the quantizer's value (R34). -/
  qv : Word64
  /-- QMIN, the quantizer's lower bound (R34). -/
  qmin : Word64
  /-- QMAX, the quantizer's upper bound (R34). -/
  qmax : Word64
  /-- OPID, the identifier of the next frame (R35). -/
  opid : Word32
  /-- OPEXT, the extended-format flag of the next frame (R35). -/
  opext : BitVec 1
  /-- PIN[0..7], the payload LOAD copies (R36). -/
  pin : Payload
  /-- The model's own: how many LOADs have drawn a mirror (R101, log entry 3). -/
  loads : Nat
  /-- The model's own: the events emitted to the diagnostics port, oldest first (R41, R227, log entry 7). -/
  diag : List Warning
  /-- The model's own: the data returned by host reads, oldest first (R57, log entry 8). -/
  readData : List Word64
  /-- The model's own: what the host does next, in order (R60, R80, log entry 1). -/
  inputs : List HostAction
deriving DecidableEq, Repr

/-- Reset (R39): every register 0, the two representations in agreement; the model's own ports empty. -/
def State.reset : State where
  id := 0
  ext := 0
  payload := Payload.zero
  mirror := 0
  wcur := 0
  rcur := 0
  status := 0
  result := 0
  qresult := 0
  opa := 0
  opb := 0
  qv := 0
  qmin := 0
  qmax := 0
  opid := 0
  opext := 0
  pin := Payload.zero
  loads := 0
  diag := []
  readData := []
  inputs := []

end Sys2Proof.Machine
end

