-- ==== Sys2Proof/Machine/Flags.lean ====
section
/-! DEFINITION. The STATUS word: its fields (R29), the codes (R220), and the overlap flag's test (R124). -/

namespace Sys2Proof.Machine

/-- The number of a status code (R220). -/
def Code.number : Code → Nat
  | .ok => 0
  | .bounds => 1
  | .domain => 2
  | .ambZero => 3
  | .illegal => 4

/-- STATUS.CODE, bits 3:0 (R29). -/
def statusCode (w : Word32) : Nat := (w.extractLsb' 0 4).toNat

/-- STATUS.CHANGED, bit 8 (R29). -/
def statusChanged (w : Word32) : Bool := w.getLsbD 8

/-- STATUS.W_SIGNED, bit 16 (R29). -/
def statusSigned (w : Word32) : Bool := w.getLsbD 16

/-- STATUS.W_OVERLAP, bit 17 (R29). -/
def statusOverlap (w : Word32) : Bool := w.getLsbD 17

/-- A whole STATUS word from its fields, every reserved bit 0 (R29). -/
def statusWord (code : Code) (changed signed overlap : Bool) : Word32 :=
  BitVec.ofNat 32 code.number
    ||| (if changed then 0x00000100#32 else 0)
    ||| (if signed then 0x00010000#32 else 0)
    ||| (if overlap then 0x00020000#32 else 0)

/-- `fieldmask(s, l) = trunc_64(mask(l) << s)`, computed unbounded and then truncated (R9, R126). -/
def fieldMask (s l : Nat) : Word64 := BitVec.ofNat 64 ((2 ^ l - 1) <<< s)

/-- The overlap test: the destination field of an encode is not all zero before the merge (R124). -/
def overlaps (mirror : Word64) (s l : Nat) : Bool := decide (mirror &&& fieldMask s l ≠ 0)

end Sys2Proof.Machine
end

