-- ==== Sys2Proof/Machine/Ops.lean ====
section
/-! DEFINITION. The operations the commands share: how a command ends (`finish`, `raise`, R12), the diagnostics port
(R227), the payload accesses of the legacy codec (R53), the two conversions (R51, R52) and the field operations on the
mirror (R123, R126, R184). The FCC takes no trap and has no exception entry or return (R229); `raise` is the whole of
what a failing command does. -/

namespace Sys2Proof.Machine

/-- `finish(flags)`: STATUS <- {CODE = OK} with the listed flags (R12). -/
def finish (changed signed overlap : Bool) (s : State) : State :=
  { s with status := statusWord .ok changed signed overlap }

/-- `raise C()`: STATUS <- {CODE = C}, every other STATUS field 0; the writes made before it stay (R12). -/
def raise (code : Code) (s : State) : State :=
  { s with status := statusWord code false false false }

/-- The end of a command that judges a decoded value: AMBZERO when it is zero, after the command's writes (R102, R127,
R132, R222). -/
def finishUnlessZero (isZero : Bool) (s : State) : State :=
  if isZero then raise .ambZero s else finish false false false s

/-- `emit(w)`, when the command's condition `b` holds: the event goes to the diagnostics port when DIAG_ACTIVE (R227). -/
def emitIf (c : Config.Params) (b : Bool) (w : Warning) (s : State) : State :=
  { s with diag := s.diag ++ (if b && c.diagActive then [w] else []) }

/-- Payload byte `i`. Every command checks its range first; past byte 7 there is no byte, and 0 stands there (log entry 17). -/
def payloadByte (p : Payload) (i : Nat) : Byte := p.getD i 0

/-- Byte `k` of a value, least significant first: `v[8k+7:8k]` (R53). -/
def byteOf (v k : Nat) : Byte := BitVec.ofNat 8 (v >>> (8 * k))

/-- `MemRead(a, n)`: n payload bytes from index a, little-endian (R53). -/
def memRead (p : Payload) (a : Nat) : Nat → Nat
  | 0 => 0
  | n + 1 => memRead p a n + (payloadByte p (a + n)).toNat <<< (8 * n)

/-- `MemWrite(a, n, v)`: n payload bytes from index a, little-endian; bits of v at 8n and above are not stored (R53). -/
def memWrite (p : Payload) (a : Nat) : Nat → Nat → Payload
  | 0, _ => p
  | n + 1, v => (memWrite p a n v).setIfInBounds (a + n) (byteOf v n)

/-- `MirrorOf(P)`: the sum over i of `P[i] << (8*(7-i))`, payload byte 0 most significant (R50, R51). -/
def mirrorOf (p : Payload) : Word64 :=
  BitVec.ofNat 64 (p[0].toNat <<< 56 + p[1].toNat <<< 48 + p[2].toNat <<< 40 + p[3].toNat <<< 32
    + p[4].toNat <<< 24 + p[5].toNat <<< 16 + p[6].toNat <<< 8 + p[7].toNat)

/-- Mirror byte j, `m[8j+7:8j]` (R8). -/
def mirrorByte (m : Word64) (j : Nat) : Byte := m.extractLsb' (8 * j) 8

/-- `PayloadOf(m)`: payload byte i is mirror byte 7 - i (R52). -/
def payloadOf (m : Word64) : Payload :=
  #v[mirrorByte m 7, mirrorByte m 6, mirrorByte m 5, mirrorByte m 4,
     mirrorByte m 3, mirrorByte m 2, mirrorByte m 1, mirrorByte m 0]

/-- `EncCore(v, s, l)`'s merge: OR of the unmasked, shifted value; nothing is cleared (R123). -/
def overlay (mirror v : Word64) (s : Nat) : Word64 := mirror ||| v <<< s

/-- `Extract(s, l)` (R126). -/
def extractField (mirror : Word64) (s l : Nat) : Word64 := (mirror &&& fieldMask s l) >>> s

/-- SETERR's field write: the field is cleared, then the new code placed in it (R184). -/
def replaceField (mirror : Word64) (p w new : Nat) : Word64 :=
  (mirror &&& ~~~(fieldMask p w)) ||| BitVec.ofNat 64 (new <<< p)

/-- The bound of the bit-range codec, in unbounded arithmetic (R121). -/
def inBounds (s l : Nat) : Bool := decide (s + l ≤ 64)

/-- The bound of the legacy codec: 7 usable bytes (R130). -/
def legacyOK (cursor : BitVec 3) (n : Nat) : Bool := decide (cursor.toNat + n ≤ 7)

/-- A cursor moved on by n bytes (R131, R132). -/
def advance (cursor : BitVec 3) (n : Nat) : BitVec 3 := BitVec.ofNat 3 (cursor.toNat + n)

end Sys2Proof.Machine
end

