-- ==== Sys2Proof/Machine/Operands.lean ====
section
/-! DEFINITION. The operand forms: field descriptors normalised to bits (R120), DEC's target width (R73), the low bytes of
the integer operands (R32, R33), and the binary64 operands of the quantizer (R10, R151, R152) with the rounding of its
result (R10). -/

namespace Sys2Proof.Machine

/-- START or LEN normalised to bits, in unbounded arithmetic (R71, R120). -/
def toBits (unit : FieldUnit) (n : Nat) : Nat :=
  match unit with
  | .bits => n
  | .bytes => n * 8

/-- The width w of DEC's target (R73). -/
def targetBits : TargetWidth → Nat
  | .w8 => 8
  | .w16 => 16
  | .w32 => 32
  | .w64 => 64

/-- `zext_64(trunc_w(f))` (R9, R127). -/
def castTo (tw : TargetWidth) (f : Word64) : Word64 := (f.setWidth (targetBits tw)).setWidth 64

/-- An integer operand's bits 7:0 (R32, R33). -/
def lowByte (v : Word64) : Byte := v.setWidth 8

/-- The biased exponent of a binary64 pattern, bits 62:52 (R10, G2). -/
def expField (x : Word64) : Nat := (x.extractLsb' 52 11).toNat

/-- The fraction of a binary64 pattern, bits 51:0 (R10, G2). -/
def fracField (x : Word64) : Nat := (x.extractLsb' 0 52).toNat

/-- `finite(x)`: not an infinity and not a NaN (R10, G4). -/
def finite (x : Word64) : Bool := decide (expField x ≠ 2047)

/-- The significand as an integer, with its implicit bit when the pattern is normal (G2). -/
def significand (x : Word64) : Nat := if expField x = 0 then fracField x else 2 ^ 52 + fracField x

/-- `val(x)`: the exact rational a finite binary64 pattern denotes; both zeros denote 0 (R10, G2). -/
def val (x : Word64) : ℚ :=
  (if x.getLsbD 63 then -1 else 1) * (significand x : ℚ) * (2 : ℚ) ^ ((max (expField x) 1 : ℕ) - 1075 : ℤ)

/-- The nearest integer, ties to even. -/
def roundHalfEven (x : ℚ) : ℤ :=
  if x - ⌊x⌋ < 1 / 2 then ⌊x⌋
  else if 1 / 2 < x - ⌊x⌋ then ⌊x⌋ + 1
  else if ⌊x⌋ % 2 = 0 then ⌊x⌋ else ⌊x⌋ + 1

/-- The exponent of the binary64 interval a positive rational falls in, not below that of the subnormals (G3). -/
def binade (a : ℚ) : ℤ := max (Int.log 2 a) (-1022)

/-- The magnitude bits nearest a positive rational, ties to even; at and above 2^1024 - 2^970 they are the infinity's (G3). -/
def roundMagnitude (a : ℚ) : Nat :=
  min (((binade a + 1022) * 2 ^ 52 + roundHalfEven (a / (2 : ℚ) ^ (binade a - 52))).toNat) 0x7FF0000000000000

/-- `round64(r)` (R10, G3); a non-zero r that rounds to a zero keeps its sign (log entry 10). -/
def round64 (r : ℚ) : Word64 :=
  if r = 0 then 0
  else BitVec.ofNat 64 ((if r < 0 then 2 ^ 63 else 0) + roundMagnitude |r|)

/-- `inDomain` of the quantizer's encodes (R152). -/
def inDomain (qv qmin qmax : Word64) : Bool :=
  finite qv && finite qmin && finite qmax && decide (val qmin ≤ val qv) && decide (val qv ≤ val qmax)

/-- The real-valued check of the quantizer's decodes (R156, R159): both bounds finite. -/
def boundsFinite (qmin qmax : Word64) : Bool := finite qmin && finite qmax

end Sys2Proof.Machine
end

