-- ==== Sys2Proof/Machine/ErrorSubfield.lean ====
section
/-! DEFINITION. The error-subfield mux and overlay: the policy table (R180), the policy function (R182), GETERR and SETERR
(43_error_subfield.md). -/

namespace Sys2Proof.Machine

/-- The two overwrite policies (R180). -/
inductive OverwritePolicy where
  | setOnce
  | always
deriving DecidableEq, Repr

/-- One row of the policy table: position and width in mirror bits, and the policy (R180). -/
structure PolicyRow where
  pos : Nat
  width : Nat
  policy : OverwritePolicy
deriving DecidableEq, Repr

/-- The policy table POLICY (R180). -/
def policyRow (c : Config.Params) : Config.Kind → PolicyRow
  | .defaultKind => ⟨0, 8, .setOnce⟩
  | .currentSensor => ⟨56, 3, .always⟩
  | .marineSensor => ⟨8 * (7 - c.marineErrByte.val), 8, .always⟩

/-- KIND = messageKindOf(ID), evaluated at each use (R27). -/
def kindOf (c : Config.Params) (s : State) : Config.Kind := c.messageKindOf s.id

/-- The policy row of the frame's kind (R183, R184). -/
def errorRow (c : Config.Params) (s : State) : PolicyRow := policyRow c (kindOf c s)

/-- The clamp: a code the field cannot represent becomes the field's greatest value (R182). -/
def clampCode (width req : Nat) : Nat := if req > 2 ^ width - 1 then 2 ^ width - 1 else req

/-- The stored code after a request: a set-once field that holds a code keeps it (R182). -/
def newCode (row : PolicyRow) (req cur : Nat) : Nat :=
  if row.policy = .setOnce ∧ cur ≠ 0 then cur else clampCode row.width req

/-- The code stored in the error field of the frame's kind. -/
def storedCode (c : Config.Params) (s : State) : Nat :=
  (extractField s.mirror (errorRow c s).pos (errorRow c s).width).toNat

/-- GETERR under the configuration c (R183). -/
def getErrWith (c : Config.Params) (s : State) : State :=
  finish false false false { s with result := BitVec.ofNat 64 (storedCode c s) }

/-- GETERR (R183). -/
def execGetErr (s : State) : Host.Outcome State Fault Refusal :=
  .next (getErrWith Config.platform s)

/-- The code SETERR leaves in the field, from OPA[7:0] and the stored code (R182, R184). -/
def requestedCode (c : Config.Params) (s : State) : Nat :=
  newCode (errorRow c s) (lowByte s.opa).toNat (storedCode c s)

/-- SETERR under the configuration c (R184). -/
def setErrWith (c : Config.Params) (s : State) : State :=
  finish (decide (requestedCode c s ≠ storedCode c s)) false false
    { s with
      mirror := replaceField s.mirror (errorRow c s).pos (errorRow c s).width (requestedCode c s)
      result := BitVec.ofNat 64 (requestedCode c s) }

/-- SETERR (R184). -/
def execSetErr (s : State) : Host.Outcome State Fault Refusal :=
  .next (setErrWith Config.platform s)

end Sys2Proof.Machine
end

