-- ==== Sys2Proof/Machine/FieldCodec.lean ====
section
/-! DEFINITION. The field codec: ENC, DEC over the mirror and ENCB, DECB over the payload (41_field_codec.md). -/

namespace Sys2Proof.Machine

/-- An ENC that passed the bounds test, at s and l in bits: the overlap is tested on the mirror as it stands, then the
operand is merged (R123 to R125). -/
def encField (c : Config.Params) (signed : Bool) (st ln : Nat) (s : State) : State :=
  finish false signed (overlaps s.mirror st ln)
    (emitIf c (overlaps s.mirror st ln) .overlap
      (emitIf c signed .signed { s with mirror := overlay s.mirror s.opa st }))

/-- ENC under the configuration c (R125). -/
def encWith (c : Config.Params) (unit : FieldUnit) (signed : Bool) (start len : Nat) (s : State) : State :=
  if inBounds (toBits unit start) (toBits unit len) then encField c signed (toBits unit start) (toBits unit len) s
  else raise .bounds s

/-- ENC (R125). -/
def execEnc (unit : FieldUnit) (signed : Bool) (start len : Nat) (s : State) : Host.Outcome State Fault Refusal :=
  .next (encWith Config.platform unit signed start len s)

/-- The end of a DEC whose field is f: RESULT takes the cast field, and the zero test is on f, before the cast (R127). -/
def finishDec (tw : TargetWidth) (f : Word64) (s : State) : State :=
  finishUnlessZero (decide (f = 0)) { s with result := castTo tw f }

/-- DEC (R127). -/
def execDec (unit : FieldUnit) (tw : TargetWidth) (start len : Nat) (s : State) : Host.Outcome State Fault Refusal :=
  .next
    (if inBounds (toBits unit start) (toBits unit len) then
       finishDec tw (extractField s.mirror (toBits unit start) (toBits unit len)) s
     else raise .bounds s)

/-- The legacy codec's write of n bytes of v at WCUR (R131, R158). -/
def writeBytes (n v : Nat) (s : State) : State :=
  { s with payload := memWrite s.payload s.wcur.toNat n v, wcur := advance s.wcur n }

/-- ENCB (R131). -/
def execEncb (nb : Nat) (s : State) : Host.Outcome State Fault Refusal :=
  .next
    (if legacyOK s.wcur nb then finish false false false (writeBytes nb s.opa.toNat s)
     else raise .bounds s)

/-- The value the legacy codec reads at RCUR (R132, R159). -/
def readBytes (n : Nat) (s : State) : Nat := memRead s.payload s.rcur.toNat n

/-- The end of a DECB that has read v: the cursor advances and RESULT is written before the value is judged (R132). -/
def finishDecb (nb v : Nat) (s : State) : State :=
  finishUnlessZero (decide (v = 0)) { s with rcur := advance s.rcur nb, result := BitVec.ofNat 64 v }

/-- DECB (R132). -/
def execDecb (nb : Nat) (s : State) : Host.Outcome State Fault Refusal :=
  .next (if legacyOK s.rcur nb then finishDecb nb (readBytes nb s) s else raise .bounds s)

end Sys2Proof.Machine
end

