-- ==== Sys2Proof/Machine/FrameStore.lean ====
section
/-! DEFINITION. The frame store and the bit mirror converter: NEW, LOAD, TOMIR, FROMMIR (40_frame_store.md). -/

namespace Sys2Proof.Machine

/-- A frame constructed with the given payload and mirror: identifier and flag from OPID and OPEXT, cursors 0 (R100, R101). -/
def construct (payload : Payload) (mirror : Word64) (s : State) : State :=
  { s with id := s.opid, ext := s.opext, payload := payload, mirror := mirror, wcur := 0, rcur := 0 }

/-- NEW (R100). -/
def execNew (s : State) : Host.Outcome State Fault Refusal :=
  .next (finish false false false (construct Payload.zero 0 s))

/-- LOAD with a given draw of LOAD_MIRROR (R101). -/
def loadWith (draw : Word64) (s : State) : State :=
  finish false false false (construct s.pin draw s)

/-- LOAD (R101): the mirror takes the next free value, and the draw is spent. -/
def execLoad (s : State) : Host.Outcome State Fault Refusal :=
  .next { loadWith (Config.loadMirror s.loads) s with loads := s.loads + 1 }

/-- TOMIR (R102): the mirror is written in both cases; AMBZERO when it is 0. -/
def execToMir (s : State) : Host.Outcome State Fault Refusal :=
  .next (finishUnlessZero (decide (mirrorOf s.payload = 0)) { s with mirror := mirrorOf s.payload })

/-- FROMMIR (R103). -/
def execFromMir (s : State) : Host.Outcome State Fault Refusal :=
  .next (finish false false false { s with payload := payloadOf s.mirror })

end Sys2Proof.Machine
end

