-- ==== Sys2Proof/Machine/Header.lean ====
section
/-! DEFINITION. The frame-header packer: HDR (44_header.md). -/

namespace Sys2Proof.Machine

/-- The mirror after HDR's first encode: the sensor identifier at bit 61 (R201). -/
def hdrFirst (s : State) : Word64 := overlay s.mirror ((lowByte s.opa).setWidth 64) 61

/-- HDR's overlap: the identifier field tested before the first encode, the rolling-number field before the second (R201). -/
def hdrOverlap (s : State) : Bool := overlaps s.mirror 61 3 || overlaps (hdrFirst s) 59 2

/-- HDR under the configuration c (R201): two bit-range encodes in this order, one overlap warning for both. -/
def hdrWith (c : Config.Params) (s : State) : State :=
  finish false false (hdrOverlap s)
    (emitIf c (hdrOverlap s) .overlap { s with mirror := overlay (hdrFirst s) ((lowByte s.opb).setWidth 64) 59 })

/-- HDR (R201). -/
def execHdr (s : State) : Host.Outcome State Fault Refusal :=
  .next (hdrWith Config.platform s)

end Sys2Proof.Machine
end

