-- ==== Sys2Proof/Machine/Quantizer.lean ====
section
/-! DEFINITION. The linear quantizer: QENC, QDEC over the mirror and QENCB, QDECB over the payload (42_quantizer.md), with
the default maps of R153, R154, R156 and R159 in exact rational arithmetic (log entry 5). -/

namespace Sys2Proof.Machine

/-- `Dbit(l) = 2^l - 1`, the steps of the bit-range codomain (R150). -/
def dBit (l : Nat) : Nat := 2 ^ l - 1

/-- `Dbyte(NB) = 2^(8*NB) - 3`, the steps of the byte codomain (R150). -/
def dByte (nb : Nat) : Nat := 2 ^ (8 * nb) - 3

/-- The linear rescale onto `steps` steps, rounded half up (R153, R154). -/
def rescale (v lo hi : ℚ) (steps : Nat) : Nat :=
  if hi = lo then 0 else ⌊(v - lo) * steps / (hi - lo) + 1 / 2⌋.toNat

/-- `QMapBit` (R153); for l = 0 there are 0 steps, and the result is 0. -/
def qMapBit (v lo hi : ℚ) (l : Nat) : Nat := if l = 0 then 0 else rescale v lo hi (dBit l)

/-- `QMapByte` (R154). -/
def qMapByte (v lo hi : ℚ) (nb : Nat) : Nat := 1 + rescale v lo hi (dByte nb)

/-- The exact decoded value of the bit-range variant (R156). -/
def qUnmapBit (q : Nat) (lo hi : ℚ) (l : Nat) : ℚ := lo + q * (hi - lo) / dBit l

/-- The exact decoded value of the byte variant (R159). -/
def qUnmapByte (q : Nat) (lo hi : ℚ) (nb : Nat) : ℚ := lo + ((q : ℚ) - 1) * (hi - lo) / dByte nb

/-- A QENC that passed both tests, storing the code q: the overlap test and the merge of ENC (R155). -/
def qencField (c : Config.Params) (q st ln : Nat) (s : State) : State :=
  finish false false (overlaps s.mirror st ln)
    (emitIf c (overlaps s.mirror st ln) .overlap { s with mirror := overlay s.mirror (BitVec.ofNat 64 q) st })

/-- QENC under the configuration c (R155): DOMAIN is tested before BOUNDS. -/
def qencWith (c : Config.Params) (unit : FieldUnit) (start len : Nat) (s : State) : State :=
  if inDomain s.qv s.qmin s.qmax then
    if inBounds (toBits unit start) (toBits unit len) then
      qencField c (qMapBit (val s.qv) (val s.qmin) (val s.qmax) (toBits unit len)) (toBits unit start)
        (toBits unit len) s
    else raise .bounds s
  else raise .domain s

/-- QENC (R155). -/
def execQenc (unit : FieldUnit) (start len : Nat) (s : State) : Host.Outcome State Fault Refusal :=
  .next (qencWith Config.platform unit start len s)

/-- A failed quantizer decode: QRESULT takes NV_REAL, then the code is raised (R156, R159). -/
def failDecode (code : Code) (s : State) : State := raise code { s with qresult := Config.nvReal }

/-- The end of a QDEC that has read the code q: the zero test, then the finite bounds, then the formula (R156, R157). -/
def finishQdec (q : Word64) (ln : Nat) (s : State) : State :=
  if q = 0 then failDecode .ambZero s
  else if boundsFinite s.qmin s.qmax then
    finish false false false { s with qresult := round64 (qUnmapBit q.toNat (val s.qmin) (val s.qmax) ln) }
  else failDecode .domain s

/-- QDEC (R156): BOUNDS first. -/
def execQdec (unit : FieldUnit) (start len : Nat) (s : State) : Host.Outcome State Fault Refusal :=
  .next
    (if inBounds (toBits unit start) (toBits unit len) then
       finishQdec (extractField s.mirror (toBits unit start) (toBits unit len)) (toBits unit len) s
     else failDecode .bounds s)

/-- QENCB (R158): DOMAIN is tested before BOUNDS; NB = 0 is BOUNDS. -/
def execQencb (nb : Nat) (s : State) : Host.Outcome State Fault Refusal :=
  .next
    (if inDomain s.qv s.qmin s.qmax then
       if decide (nb ≠ 0) && legacyOK s.wcur nb then
         finish false false false (writeBytes nb (qMapByte (val s.qv) (val s.qmin) (val s.qmax) nb) s)
       else raise .bounds s
     else raise .domain s)

/-- The end of a QDECB that has read the code q and advanced RCUR: the zero test, then the finite bounds, then the formula
(R157, R159). -/
def finishQdecb (q nb : Nat) (s : State) : State :=
  if q = 0 then failDecode .ambZero s
  else if boundsFinite s.qmin s.qmax then
    finish false false false { s with qresult := round64 (qUnmapByte q (val s.qmin) (val s.qmax) nb) }
  else failDecode .domain s

/-- QDECB (R159): BOUNDS first, also for NB = 0. -/
def execQdecb (nb : Nat) (s : State) : Host.Outcome State Fault Refusal :=
  .next
    (if decide (nb ≠ 0) && legacyOK s.rcur nb then
       finishQdecb (readBytes nb s) nb { s with rcur := advance s.rcur nb }
     else failDecode .bounds s)

end Sys2Proof.Machine
end

