-- ==== Sys2Proof/Machine/Dispatch.lean ====
section
/-! DEFINITION. One arm per command of the opcode map (R75). -/

namespace Sys2Proof.Machine

def exec (i : Instr) (s : State) : Host.Outcome State Fault Refusal :=
  match i with
  | .new => Sys2Proof.Machine.execNew s
  | .load => Sys2Proof.Machine.execLoad s
  | .toMir => Sys2Proof.Machine.execToMir s
  | .fromMir => Sys2Proof.Machine.execFromMir s
  | .enc unit signed start len => Sys2Proof.Machine.execEnc unit signed start len s
  | .dec unit tw start len => Sys2Proof.Machine.execDec unit tw start len s
  | .encb nb => Sys2Proof.Machine.execEncb nb s
  | .decb nb => Sys2Proof.Machine.execDecb nb s
  | .qenc unit start len => Sys2Proof.Machine.execQenc unit start len s
  | .qdec unit start len => Sys2Proof.Machine.execQdec unit start len s
  | .qencb nb => Sys2Proof.Machine.execQencb nb s
  | .qdecb nb => Sys2Proof.Machine.execQdecb nb s
  | .getErr => Sys2Proof.Machine.execGetErr s
  | .setErr => Sys2Proof.Machine.execSetErr s
  | .hdr => Sys2Proof.Machine.execHdr s

end Sys2Proof.Machine
end

