-- ==== Sys2Proof/Machine/HostBus.lean ====
section
/-! DEFINITION. The host's side of the FCC: the register map (R56), the access rules (R57, R58), the command trigger (R11,
R28, R76), the reset input (R250), and one host action a step (R60). -/

namespace Sys2Proof.Machine

/-- The registers of the host map (R56). -/
inductive HostReg where
  | cmd
  | status
  | result
  | qresult
  | opa
  | opb
  | qv
  | qmin
  | qmax
  | opid
  | opext
  | pin (i : Fin 8)
  | id
  | ext
  | payload (i : Fin 8)
  | mirror
  | wcur
  | rcur
  | kind
deriving DecidableEq, Repr

/-- Byte offsets from the base (R56). -/
def regOffset : HostReg → Nat
  | .cmd => 0x00
  | .status => 0x08
  | .result => 0x10
  | .qresult => 0x18
  | .opa => 0x20
  | .opb => 0x28
  | .qv => 0x30
  | .qmin => 0x38
  | .qmax => 0x40
  | .opid => 0x48
  | .opext => 0x50
  | .pin i => 0x58 + i.val
  | .id => 0x60
  | .ext => 0x68
  | .payload i => 0x70 + i.val
  | .mirror => 0x78
  | .wcur => 0x80
  | .rcur => 0x88
  | .kind => 0x90

/-- The one width, in bits, at which each register is accessed (R57). -/
def regWidth : HostReg → Nat
  | .cmd => 32
  | .status => 32
  | .result => 64
  | .qresult => 64
  | .opa => 64
  | .opb => 64
  | .qv => 64
  | .qmin => 64
  | .qmax => 64
  | .opid => 32
  | .opext => 32
  | .pin _ => 8
  | .id => 32
  | .ext => 32
  | .payload _ => 8
  | .mirror => 64
  | .wcur => 32
  | .rcur => 32
  | .kind => 32

/-- Every register of the host map (R56). -/
def allRegs : List HostReg :=
  [.cmd, .status, .result, .qresult, .opa, .opb, .qv, .qmin, .qmax, .opid, .opext, .id, .ext, .mirror, .wcur, .rcur,
   .kind] ++ (List.finRange 8).map .pin ++ (List.finRange 8).map .payload

/-- The register a host access reaches: defined only at an offset of R56 and at that register's width (R57). -/
def accessed (offset width : Nat) : Option HostReg :=
  allRegs.find? fun r => decide (regOffset r = offset) && decide (regWidth r = width)

/-- KIND's 2-bit code; 3 is never produced (R27). -/
def kindCode : Config.Kind → Nat
  | .defaultKind => 0
  | .currentSensor => 1
  | .marineSensor => 2

/-- What a host read of a register returns, zero-extended (R56, R57); CMD reads 0 (R28). -/
def regValue (c : Config.Params) (r : HostReg) (s : State) : Word64 :=
  match r with
  | .cmd => 0
  | .status => s.status.setWidth 64
  | .result => s.result
  | .qresult => s.qresult
  | .opa => s.opa
  | .opb => s.opb
  | .qv => s.qv
  | .qmin => s.qmin
  | .qmax => s.qmax
  | .opid => s.opid.setWidth 64
  | .opext => s.opext.setWidth 64
  | .pin i => (payloadByte s.pin i.val).setWidth 64
  | .id => s.id.setWidth 64
  | .ext => s.ext.setWidth 64
  | .payload i => (payloadByte s.payload i.val).setWidth 64
  | .mirror => s.mirror
  | .wcur => s.wcur.setWidth 64
  | .rcur => s.rcur.setWidth 64
  | .kind => BitVec.ofNat 64 (kindCode (kindOf c s))

/-- A host write of a register other than CMD: an operand register takes the data, a read-only register ignores them
(R57, D35), and no other register changes (R58). -/
def writeReg (r : HostReg) (data : Word64) (s : State) : State :=
  match r with
  | .opa => { s with opa := data }
  | .opb => { s with opb := data }
  | .qv => { s with qv := data }
  | .qmin => { s with qmin := data }
  | .qmax => { s with qmax := data }
  | .opid => { s with opid := data.setWidth 32 }
  | .opext => { s with opext := data.setWidth 1 }
  | .pin i => { s with pin := s.pin.setIfInBounds i.val (data.setWidth 8) }
  | .cmd => s
  | .status => s
  | .result => s
  | .qresult => s
  | .id => s
  | .ext => s
  | .payload _ => s
  | .mirror => s
  | .wcur => s
  | .rcur => s
  | .kind => s

/-- A write of CMD: the command the word names runs, and an illegal word writes STATUS <- {CODE = ILLEGAL} and nothing
else (R11, R76, R228). -/
def runCommand (word : Word32) (s : State) : Host.Outcome State Fault Refusal :=
  match decode word with
  | .instr i => exec i s
  | .illegal _ => .next (raise .illegal s)

/-- The reset input (R250): every register takes its value of R39; no event is emitted, the configuration stays, and the
model's own ports stay (log entry 14). -/
def resetRegisters (s : State) : State :=
  { State.reset with loads := s.loads, diag := s.diag, readData := s.readData, inputs := s.inputs }

/-- A host write (R57). -/
def hostWrite (offset width : Nat) (data : Word64) (s : State) : Host.Outcome State Fault Refusal :=
  match accessed offset width with
  | some .cmd => runCommand (data.setWidth 32) s
  | some r => .next (writeReg r data s)
  | none => .refused (.undefinedAccess offset width)

/-- A host read (R57, R58): the value goes to the host, and nothing in the FCC changes. -/
def hostRead (c : Config.Params) (offset width : Nat) (s : State) : Host.Outcome State Fault Refusal :=
  match accessed offset width with
  | some r => .next { s with readData := s.readData ++ [regValue c r s] }
  | none => .refused (.undefinedAccess offset width)

/-- One host action. -/
def perform (a : HostAction) (s : State) : Host.Outcome State Fault Refusal :=
  match a with
  | .write offset width data => hostWrite offset width data s
  | .read offset width => hostRead Config.platform offset width s
  | .reset => .next (resetRegisters s)
  | .concurrentAgent => .refused .concurrentAgent

/-- The next host action, in the order the host makes them (R60); with none, the FCC waits and nothing changes (R250). -/
def hostStep (s : State) : Host.Outcome State Fault Refusal :=
  match s.inputs with
  | [] => .next s
  | a :: rest => perform a { s with inputs := rest }

end Sys2Proof.Machine
end

