-- ==== Sys2Proof/Machine/Step.lean ====
section
/-! DEFINITION. One step: the next host action (R11, R60). -/

namespace Sys2Proof.Machine

/-- One step of the FCC. -/
def step (s : State) : Host.Outcome State Fault Refusal := hostStep s

/-- The state in which the host's next action is a 32-bit write of the command word `w` to CMD, its bits numbered as the
opcode table numbers them and those from `nbits` up 0 (log entry 1). -/
def State.withFetchWord (s : State) (nbits w : Nat) : State :=
  { s with inputs := .write 0x00 32 (BitVec.ofNat 64 (w % 2 ^ nbits % 2 ^ 32)) :: s.inputs }

end Sys2Proof.Machine
end

