-- ==== Sys2Proof/Machine/Assembler.lean ====
section
/-! DEFINITION. The spec's own assembler (R79), the host actions of programs (R80) and the pseudo-instructions (R81), over
lines already split into a mnemonic, suffixes and operands (log entry 19). Nothing here is state: a program is a list of
host actions. -/

namespace Sys2Proof.Machine

/-- The suffixes of R79. -/
inductive Suffix where
  | b
  | s
  | w8
  | w16
  | w32
  | w64
deriving DecidableEq, Repr

/-- The command mnemonics of R79. -/
inductive Mnemonic where
  | new
  | load
  | toMir
  | fromMir
  | enc
  | dec
  | encb
  | decb
  | qenc
  | qdec
  | qencb
  | qdecb
  | getErr
  | setErr
  | hdr
deriving DecidableEq, Repr

/-- A command line of the assembler (R79). -/
structure AsmLine where
  mnemonic : Mnemonic
  suffixes : List Suffix
  operands : List Nat
deriving DecidableEq, Repr

/-- The suffixes a mnemonic takes, in either order, each at most once (R79). -/
def suffixesFit (allowed given : List Suffix) : Bool :=
  given.all (fun x => allowed.contains x) && decide given.Nodup

/-- At most one width suffix (R79). -/
def oneWidth (given : List Suffix) : Bool :=
  decide ((given.filter (fun x => [Suffix.w8, .w16, .w32, .w64].contains x)).length ≤ 1)

/-- `.B` sets U = 1 (R79). -/
def unitOf (given : List Suffix) : FieldUnit := if given.contains .b then .bytes else .bits

/-- The width suffix sets TW; the default is .W64 (R79). -/
def widthOf (given : List Suffix) : TargetWidth :=
  if given.contains .w8 then .w8
  else if given.contains .w16 then .w16
  else if given.contains .w32 then .w32
  else .w64

/-- A command with no suffix and no operand. -/
def bare (i : Instr) (l : AsmLine) : Option Instr :=
  match l.suffixes, l.operands with
  | [], [] => some i
  | _, _ => none

/-- A command `mnemonic nb`, nb in 0..7. -/
def withCount (f : Nat → Instr) (l : AsmLine) : Option Instr :=
  match l.suffixes, l.operands with
  | [], [nb] => if byteCountFits nb then some (f nb) else none
  | _, _ => none

/-- A command `mnemonic start, len`, both in 0..127. -/
def withField (allowed : List Suffix) (f : List Suffix → Nat → Nat → Instr) (l : AsmLine) : Option Instr :=
  match l.operands with
  | [start, len] =>
    if suffixesFit allowed l.suffixes && oneWidth l.suffixes && fieldDescriptorFits start len then
      some (f l.suffixes start len)
    else none
  | _ => none

/-- The assembler: it refuses every operand outside its range (R79). -/
def assemble (l : AsmLine) : Option Instr :=
  match l.mnemonic with
  | .new => bare .new l
  | .load => bare .load l
  | .toMir => bare .toMir l
  | .fromMir => bare .fromMir l
  | .getErr => bare .getErr l
  | .setErr => bare .setErr l
  | .hdr => bare .hdr l
  | .enc => withField [.b, .s] (fun x start len => .enc (unitOf x) (x.contains .s) start len) l
  | .dec => withField [.b, .w8, .w16, .w32, .w64] (fun x start len => .dec (unitOf x) (widthOf x) start len) l
  | .qenc => withField [.b] (fun x start len => .qenc (unitOf x) start len) l
  | .qdec => withField [.b] (fun x start len => .qdec (unitOf x) start len) l
  | .encb => withCount .encb l
  | .decb => withCount .decb l
  | .qencb => withCount .qencb l
  | .qdecb => withCount .qdecb l

/-- A line of a program: a host action, a command, or a pseudo-instruction (R79 to R81). -/
inductive ProgramLine where
  | wr (r : HostReg) (value : Word64)
  | wrPin (bytes : Payload)
  | rd (r : HostReg)
  | command (l : AsmLine)
  | encByte (i : Nat)
  | decByte (i : Nat)
  | syncB2M
  | syncM2B
  | setErrI (code : Word64)
  | hdrI (sid rn : Word64)
  | newI (id : Word64) (ext : Option Word64)
deriving DecidableEq, Repr

/-- A host write of a whole register. -/
def writeAction (r : HostReg) (value : Word64) : HostAction := .write (regOffset r) (regWidth r) value

/-- A host write of the instruction's word to CMD. -/
def commandAction (i : Instr) : HostAction := writeAction .cmd ((encode i).setWidth 64)

/-- The operand registers, which `WR` names (R80). -/
def isOperandReg : HostReg → Bool
  | .opa => true
  | .opb => true
  | .qv => true
  | .qmin => true
  | .qmax => true
  | .opid => true
  | .opext => true
  | .pin _ => true
  | _ => false

/-- `NEWI`'s `ext`, which may be left out: its default is 0 (R81). -/
def newIExt (ext : Option Word64) : Word64 := ext.getD 0

/-- The host actions a line stands for; none where the assembler refuses it. -/
def lineActions : ProgramLine → Option (List HostAction)
  | .wr r value => if isOperandReg r then some [writeAction r value] else none
  | .wrPin bytes => some ((List.finRange 8).map fun i => writeAction (.pin i) ((payloadByte bytes i.val).setWidth 64))
  | .rd r => some [.read (regOffset r) (regWidth r)]
  | .command l => (assemble l).map fun i => [commandAction i]
  | .encByte i => if i ≤ 7 then some [commandAction (.enc .bytes false (7 - i) 1)] else none
  | .decByte i => if i ≤ 7 then some [commandAction (.dec .bytes .w8 (7 - i) 1)] else none
  | .syncB2M => some [commandAction .toMir]
  | .syncM2B => some [commandAction .fromMir]
  | .setErrI code => some [writeAction .opa code, commandAction .setErr]
  | .hdrI sid rn => some [writeAction .opa sid, writeAction .opb rn, commandAction .hdr]
  | .newI id ext => some [writeAction .opid id, writeAction .opext (newIExt ext), commandAction .new]

/-- A program is its lines' actions in order (R80). -/
def programActions : List ProgramLine → Option (List HostAction)
  | [] => some []
  | l :: rest =>
    match lineActions l, programActions rest with
    | some a, some b => some (a ++ b)
    | _, _ => none

end Sys2Proof.Machine
end

