-- ==== Sys2Proof/Safety.lean ====
section
/-! DEFINITION. What counts as a sound state and a safe input, in the terms the claims use. -/

namespace Sys2Proof.Machine

/-- The STATUS words the rules can produce: a failure code alone, or OK with CHANGED, or OK with the two warnings
(R29, R220, R221, R223). -/
def legalStatusWords : List Word32 :=
  [0x00000000, 0x00000001, 0x00000002, 0x00000003, 0x00000004, 0x00000100, 0x00010000, 0x00020000, 0x00030000]

/-- STATUS holds a word the rules can produce. -/
def StatusLegal (s : State) : Bool := legalStatusWords.contains s.status

/-- A host action that R56, R57 and R60 give a meaning. -/
def definedAction : HostAction → Bool
  | .write offset width _ => (accessed offset width).isSome
  | .read offset width => (accessed offset width).isSome
  | .reset => true
  | .concurrentAgent => false

/-- The payload and the mirror hold the same frame (R40). -/
abbrev Synchronised (s : State) : Prop := s.mirror = mirrorOf s.payload

end Sys2Proof.Machine
end

