-- ==== Sys2Proof/Certificates/Slice0/Obligations.lean ====
section
/-! DEFINITION. The statements for the provers, from the numbered rules of spec/. A statement about what a command does says
its next state, then the frame in the form `t = { s with … }`: every register not listed there is unchanged. -/

namespace Sys2Proof.Claim

open Sys2Proof.Machine

/-- A START or LEN in bits (R120). -/
def bitCount (unit : FieldUnit) (n : Nat) : Nat :=
  match unit with
  | .bits => n
  | .bytes => 8 * n

/-- Bits `[s, s + l)` of a 64-bit value as a number (R126). -/
def field (m : Word64) (s l : Nat) : Nat := m.toNat / 2 ^ s % 2 ^ l

/-- The command-word bits that select the command and hold the fields it reads (R70, R74). -/
def wordBitsRead : Instr → Word32
  | .enc .. => 0xFC7FFE7F#32
  | .dec .. => 0xFC7FFFBF#32
  | .encb _ => 0xFF80001F#32
  | .decb _ => 0xFF80001F#32
  | .qenc .. => 0xFC7FFE3F#32
  | .qdec .. => 0xFC7FFE3F#32
  | .qencb _ => 0xFF80001F#32
  | .qdecb _ => 0xFF80001F#32
  | .new => 0xFC00001F#32
  | .load => 0xFC00001F#32
  | .toMir => 0xFC00001F#32
  | .fromMir => 0xFC00001F#32
  | .getErr => 0xFC00001F#32
  | .setErr => 0xFC00001F#32
  | .hdr => 0xFC00001F#32

/-- A word R76 calls illegal: OP is 0x00 or in 0x10..0x1F, or RSV is not 0. -/
def illegalWord (w : Word32) : Prop := w.toNat % 32 = 0 ∨ 16 ≤ w.toNat % 32 ∨ w.toNat / 2 ^ 26 ≠ 0

/-- The word `w` holds the instruction: RSV is 0, OP is its opcode, and the fields it reads are its operands (R70, R74, R77). -/
def isWordOf (w : Word32) (i : Instr) : Prop :=
  w.toNat / 2 ^ 26 = 0 ∧ w.toNat % 2 ^ 5 = i.opcode ∧
  match i with
  | .enc u sg a b => w.toNat / 2 ^ 5 % 2 = u.code ∧ w.toNat / 2 ^ 6 % 2 = sg.toNat ∧ w.toNat / 2 ^ 9 % 2 ^ 7 = a
      ∧ w.toNat / 2 ^ 16 % 2 ^ 7 = b
  | .dec u tw a b => w.toNat / 2 ^ 5 % 2 = u.code ∧ w.toNat / 2 ^ 7 % 2 ^ 2 = tw.code ∧ w.toNat / 2 ^ 9 % 2 ^ 7 = a
      ∧ w.toNat / 2 ^ 16 % 2 ^ 7 = b
  | .qenc u a b => w.toNat / 2 ^ 5 % 2 = u.code ∧ w.toNat / 2 ^ 9 % 2 ^ 7 = a ∧ w.toNat / 2 ^ 16 % 2 ^ 7 = b
  | .qdec u a b => w.toNat / 2 ^ 5 % 2 = u.code ∧ w.toNat / 2 ^ 9 % 2 ^ 7 = a ∧ w.toNat / 2 ^ 16 % 2 ^ 7 = b
  | .encb nb => w.toNat / 2 ^ 23 % 2 ^ 3 = nb
  | .decb nb => w.toNat / 2 ^ 23 % 2 ^ 3 = nb
  | .qencb nb => w.toNat / 2 ^ 23 % 2 ^ 3 = nb
  | .qdecb nb => w.toNat / 2 ^ 23 % 2 ^ 3 = nb
  | .new => True
  | .load => True
  | .toMir => True
  | .fromMir => True
  | .getErr => True
  | .setErr => True
  | .hdr => True

/-- A command with operand fields is encoded with OP = op and RSV = 0. -/
def encodedAs (i : Instr) (op : Nat) : Prop :=
  ∀ w : Word32, decode w = .instr i → w.toNat % 2 ^ 5 = op ∧ w.toNat / 2 ^ 26 = 0

/-- A command that reads no field of the word is encoded as OP = op and RSV = 0, every other field ignored (R74). -/
def encodedExactlyAs (i : Instr) (op : Nat) : Prop :=
  ∀ w : Word32, decode w = .instr i ↔ w.toNat % 2 ^ 5 = op ∧ w.toNat / 2 ^ 26 = 0

/-- The offsets of R56 with the access widths of R57. -/
def hostMap : List (Nat × Nat) :=
  [(0x00, 32), (0x08, 32), (0x10, 64), (0x18, 64), (0x20, 64), (0x28, 64), (0x30, 64), (0x38, 64), (0x40, 64),
   (0x48, 32), (0x50, 32), (0x60, 32), (0x68, 32), (0x78, 64), (0x80, 32), (0x88, 32), (0x90, 32)]
  ++ (List.range 8).map (fun i => (0x58 + i, 8)) ++ (List.range 8).map (fun i => (0x70 + i, 8))

/-- What the host reads at each offset of R56, as numbers; KIND under the configuration c. -/
def hostView (c : Config.Params) (s : State) : List (Nat × Nat × Nat) :=
  [(0x00, 32, 0), (0x08, 32, s.status.toNat), (0x10, 64, s.result.toNat), (0x18, 64, s.qresult.toNat),
   (0x20, 64, s.opa.toNat), (0x28, 64, s.opb.toNat), (0x30, 64, s.qv.toNat), (0x38, 64, s.qmin.toNat),
   (0x40, 64, s.qmax.toNat), (0x48, 32, s.opid.toNat), (0x50, 32, s.opext.toNat), (0x60, 32, s.id.toNat),
   (0x68, 32, s.ext.toNat), (0x78, 64, s.mirror.toNat), (0x80, 32, s.wcur.toNat), (0x88, 32, s.rcur.toNat),
   (0x90, 32, match c.messageKindOf s.id with
     | .defaultKind => 0
     | .currentSensor => 1
     | .marineSensor => 2)]
  ++ (List.finRange 8).map (fun i => (0x58 + i.val, 8, s.pin[i].toNat))
  ++ (List.finRange 8).map (fun i => (0x70 + i.val, 8, s.payload[i].toNat))

/-- The offsets and widths of the read-only registers of R56. -/
def readOnlyMap : List (Nat × Nat) :=
  [(0x08, 32), (0x10, 64), (0x18, 64), (0x60, 32), (0x68, 32), (0x78, 64), (0x80, 32), (0x88, 32), (0x90, 32)]
  ++ (List.range 8).map (fun i => (0x70 + i, 8))

/-- R152, as a proposition. -/
def InDomain (s : State) : Prop :=
  finite s.qv = true ∧ finite s.qmin = true ∧ finite s.qmax = true ∧ val s.qmin ≤ val s.qv ∧ val s.qv ≤ val s.qmax

/-- The position of the error field of a kind in the mirror (R180). -/
def errorPos (c : Config.Params) : Config.Kind → Nat
  | .defaultKind => 0
  | .currentSensor => 56
  | .marineSensor => 8 * (7 - c.marineErrByte.val)

/-- The width of the error field of a kind (R180). -/
def errorWidth : Config.Kind → Nat
  | .defaultKind => 8
  | .currentSensor => 3
  | .marineSensor => 8

/-- The code stored after SETERR (R182): set-once for the default kind, else the request clamped to the field. -/
def codeAfter (k : Config.Kind) (req cur : Nat) : Nat :=
  if k = .defaultKind ∧ cur ≠ 0 then cur else min req (2 ^ errorWidth k - 1)

/-- The commands that may write MIRROR (R24). -/
def mayWriteMirror : Instr → Bool
  | .new => true
  | .load => true
  | .toMir => true
  | .enc .. => true
  | .qenc .. => true
  | .setErr => true
  | .hdr => true
  | _ => false

/-- The commands that may write PAYLOAD (R23). -/
def mayWritePayload : Instr → Bool
  | .new => true
  | .load => true
  | .fromMir => true
  | .encb _ => true
  | .qencb _ => true
  | _ => false

/-- The commands that may write RESULT (R30). -/
def mayWriteResult : Instr → Bool
  | .dec .. => true
  | .decb _ => true
  | .getErr => true
  | .setErr => true
  | _ => false

/-- The commands that may write QRESULT (R31). -/
def mayWriteQresult : Instr → Bool
  | .qdec .. => true
  | .qdecb _ => true
  | _ => false

/-- How many bytes a command reads at RCUR (R132, R159). -/
def readCount : Instr → Nat
  | .decb nb => nb
  | .qdecb nb => nb
  | _ => 0

/-- The suffix lists ENC takes, either order, with the U and SG each sets (R79). -/
def encSuffixes : List (List Suffix × FieldUnit × Bool) :=
  [([], .bits, false), ([.b], .bytes, false), ([.s], .bits, true), ([.b, .s], .bytes, true), ([.s, .b], .bytes, true)]

/-- The suffix lists DEC takes, either order, with the U and TW each sets; TW is .W64 by default (R79). -/
def decSuffixes : List (List Suffix × FieldUnit × TargetWidth) :=
  [([], .bits, .w64), ([.b], .bytes, .w64)]
  ++ [(Suffix.w8, TargetWidth.w8), (.w16, .w16), (.w32, .w32), (.w64, .w64)].flatMap fun p =>
      [([p.1], .bits, p.2), ([.b, p.1], .bytes, p.2), ([p.1, .b], .bytes, p.2)]

/-- The suffix lists QENC and QDEC take, with the U each sets (R79). -/
def quantizerSuffixes : List (List Suffix × FieldUnit) := [([], .bits), ([.b], .bytes)]

/-- The commands without operands, by their mnemonics (R79). -/
def bareCommands : List (Mnemonic × Instr) :=
  [(.new, .new), (.load, .load), (.toMir, .toMir), (.fromMir, .fromMir), (.getErr, .getErr), (.setErr, .setErr),
   (.hdr, .hdr)]

/-- NEW and LOAD, which construct a frame (R100, R101). -/
def constructs : Instr → Bool
  | .new => true
  | .load => true
  | _ => false

/-- The commands that clear mirror bits other than an error field (R256): NEW, LOAD and TOMIR. -/
def replacesMirror : Instr → Bool
  | .new => true
  | .load => true
  | .toMir => true
  | _ => false

end Sys2Proof.Claim

open Sys2Proof Sys2Proof.Machine

/-! ### The command word -/

/-- R82: the encoding formula on every value its fields hold, and the three worked words in both directions. -/
def Obligations.EncodingFormulaAndWorkedWords : Prop :=
  (∀ op u sg tw start len nb : Nat, op < 32 → u < 2 → sg < 2 → tw < 4 → start < 128 → len < 128 → nb < 8 →
    (encodeFields op u sg tw start len nb).toNat
      = op + u * 2 ^ 5 + sg * 2 ^ 6 + tw * 2 ^ 7 + start * 2 ^ 9 + len * 2 ^ 16 + nb * 2 ^ 23)
  ∧ encode (.enc .bytes false 7 1) = 0x00010E25#32 ∧ decode 0x00010E25#32 = .instr (.enc .bytes false 7 1)
  ∧ encode (.dec .bits .w8 8 9) = 0x00091006#32 ∧ decode 0x00091006#32 = .instr (.dec .bits .w8 8 9)
  ∧ encode (.encb 2) = 0x01000007#32 ∧ decode 0x01000007#32 = .instr (.encb 2)

/-- Words written out from the format of R70 and the opcode map of R75 decode to the command they stand for. -/
def Obligations.WrittenWordsDecode : Prop :=
  decode 0x03FFFFE1#32 = .instr .new
  ∧ decode 0x00000002#32 = .instr .load
  ∧ decode 0x00000003#32 = .instr .toMir
  ∧ decode 0x00000004#32 = .instr .fromMir
  ∧ decode 0x00047845#32 = .instr (.enc .bits true 60 4)
  ∧ decode 0x00400186#32 = .instr (.dec .bits .w64 0 64)
  ∧ decode 0x01800008#32 = .instr (.decb 3)
  ∧ decode 0x000C2009#32 = .instr (.qenc .bits 16 12)
  ∧ decode 0x0008002A#32 = .instr (.qdec .bytes 0 8)
  ∧ decode 0x0100000B#32 = .instr (.qencb 2)
  ∧ decode 0x0080000C#32 = .instr (.qdecb 1)
  ∧ decode 0x0000000D#32 = .instr .getErr
  ∧ decode 0x0000000E#32 = .instr .setErr
  ∧ decode 0x0000000F#32 = .instr .hdr
  ∧ decode 0x04000005#32 = .illegal .reservedBitsSet
  ∧ decode 0x00000010#32 = .illegal .opcodeUnassigned

/-- Decoding the encoding of a well-formed instruction gives it back, every operand at every value the word admits. -/
def Obligations.DecodeOfEncodeIsIdentity : Prop :=
  ∀ i : Instr, i.wf = true → decode (encode i) = .instr i

/-- A word that decodes to a command holds it: the command is well formed, and its encoding is the word's read bits. -/
def Obligations.DecodedWordReencodesToItsReadBits : Prop :=
  ∀ (w : Word32) (i : Instr), decode w = .instr i → i.wf = true ∧ encode i = w &&& Claim.wordBitsRead i

/-- Every field a command does not read is ignored, RSV excepted (R74). -/
def Obligations.IgnoredFieldsDoNotMatter : Prop :=
  ∀ (w w' : Word32) (i : Instr), decode w = .instr i →
    w &&& Claim.wordBitsRead i = w' &&& Claim.wordBitsRead i → decode w' = .instr i

/-- R75: a command is selected by `CMD & 0xFC00001F` equal to its OP value, with the OP numbers of the map. -/
def Obligations.SelectingMaskPicksTheCommand : Prop :=
  (∀ (w : Word32) (i : Instr), decode w = .instr i → w &&& 0xFC00001F#32 = BitVec.ofNat 32 i.opcode)
  ∧ (∀ (w : Word32) (n : Nat), 1 ≤ n → n ≤ 15 → w &&& 0xFC00001F#32 = BitVec.ofNat 32 n →
      ∃ i : Instr, decode w = .instr i ∧ i.opcode = n)
  ∧ (Instr.new.opcode = 0x01 ∧ Instr.load.opcode = 0x02 ∧ Instr.toMir.opcode = 0x03 ∧ Instr.fromMir.opcode = 0x04
    ∧ (∀ u sg a b, (Instr.enc u sg a b).opcode = 0x05) ∧ (∀ u w a b, (Instr.dec u w a b).opcode = 0x06)
    ∧ (∀ n, (Instr.encb n).opcode = 0x07) ∧ (∀ n, (Instr.decb n).opcode = 0x08)
    ∧ (∀ u a b, (Instr.qenc u a b).opcode = 0x09) ∧ (∀ u a b, (Instr.qdec u a b).opcode = 0x0A)
    ∧ (∀ n, (Instr.qencb n).opcode = 0x0B) ∧ (∀ n, (Instr.qdecb n).opcode = 0x0C)
    ∧ Instr.getErr.opcode = 0x0D ∧ Instr.setErr.opcode = 0x0E ∧ Instr.hdr.opcode = 0x0F)

/-- R77: the decode procedure: a word decodes to the instruction it holds, U, SG, TW, START, LEN and NB read at their places,
and to a refusal exactly when RSV is not 0 or OP names no command. -/
def Obligations.DecodeReadsTheFieldsOfTheWord : Prop :=
  (∀ (w : Word32) (i : Instr), decode w = .instr i ↔ Claim.isWordOf w i)
  ∧ (∀ w : Word32, (∃ why : IllegalWord, decode w = .illegal why) ↔ Claim.illegalWord w)

/-! ### One step -/

/-- R76: an illegal word writes STATUS <- ILLEGAL and nothing else, and every other word runs the command it names. The word
comes from the model's queue of host actions (log entry 1). -/
def Obligations.IllegalWordWritesOnlyStatus : Prop :=
  ∀ (s : State) (data : Word64) (rest : List HostAction), s.inputs = .write 0x00 32 data :: rest →
    (Claim.illegalWord (data.setWidth 32) → step s = .next { s with inputs := rest, status := 0x00000004 })
    ∧ (¬ Claim.illegalWord (data.setWidth 32) →
        ∃ i : Instr, decode (data.setWidth 32) = .instr i ∧ step s = exec i { s with inputs := rest })

/-- A step whose host action is a write of a legal word to CMD is `exec` of the decoded instruction, in the state that
action has left the queue of; a word placed by `withFetchWord` is such an action (the queue is the model's, log entry 1). -/
def Obligations.StepRunsTheDecodedCommand : Prop :=
  (∀ (s : State) (data : Word64) (rest : List HostAction) (i : Instr), s.inputs = .write 0x00 32 data :: rest →
    decode (data.setWidth 32) = .instr i → step s = exec i { s with inputs := rest })
  ∧ (∀ (s : State) (w : Nat) (i : Instr), decodeTableWord 32 w = some i → step (s.withFetchWord 32 w) = exec i s)

/-- Every command completes, in every state, with a STATUS word the rules can produce, so that its reserved bits are 0,
codes 5 to 15 never appear, and a warning or CHANGED appears only with CODE = OK. -/
def Obligations.EveryCommandCompletesWithLegalStatus : Prop :=
  ∀ (i : Instr) (s : State), ∃ t, exec i s = .next t ∧ StatusLegal t = true

/-- Every step keeps STATUS one of the nine words the rules can produce. -/
def Obligations.EveryStepKeepsStatusLegal : Prop :=
  ∀ s t : State, StatusLegal s = true → step s = .next t → StatusLegal t = true

/-- From a state whose pending host actions are all defined, the machine never stops: n steps perform the first n of them, and
with none left a step changes nothing: the FCC waits (R250; the queue is the model's, log entry 1). -/
def Obligations.DefinedHostActionsNeverStop : Prop :=
  (∀ (n : Nat) (s : State), StatusLegal s = true → s.inputs.all definedAction = true →
    ∃ t : State, Host.Core.run Sys2Proof.core n s = .next t ∧ StatusLegal t = true ∧ t.inputs = s.inputs.drop n)
  ∧ (∀ s : State, s.inputs = [] → step s = .next s)

/-! ### Reset and the host -/

/-- R39: the reset values. -/
def Obligations.ResetValuesAreZero : Prop :=
  State.reset.id = 0 ∧ State.reset.ext = 0 ∧ (∀ i : Fin 8, State.reset.payload[i] = 0) ∧ State.reset.mirror = 0
  ∧ State.reset.wcur = 0 ∧ State.reset.rcur = 0 ∧ State.reset.status = 0 ∧ State.reset.result = 0
  ∧ State.reset.qresult = 0 ∧ State.reset.opa = 0 ∧ State.reset.opb = 0 ∧ State.reset.qv = 0
  ∧ State.reset.qmin = 0 ∧ State.reset.qmax = 0 ∧ State.reset.opid = 0 ∧ State.reset.opext = 0
  ∧ (∀ i : Fin 8, State.reset.pin[i] = 0) ∧ Synchronised State.reset ∧ StatusLegal State.reset = true

/-- The reset input puts every register at its reset value and emits no event, whatever the state (R250); the model's own fields
stay (log entry 14). -/
def Obligations.ResetInputRestoresEveryRegister : Prop :=
  ∀ (s : State) (rest : List HostAction), s.inputs = .reset :: rest →
    step s = .next { State.reset with
      inputs := rest, diag := s.diag, readData := s.readData, loads := s.loads }

/-- R57: at an offset and width the map lists an access is performed; elsewhere it is refused; a second agent is refused
(log entries 1, 11, 12). -/
def Obligations.HostAccessIsDefinedExactlyOnTheMap : Prop :=
  ∀ (s : State) (offset width : Nat) (data : Word64) (rest : List HostAction),
    ((offset, width) ∈ Claim.hostMap →
      (∃ t, step { s with inputs := .read offset width :: rest } = .next t)
      ∧ (∃ t, step { s with inputs := .write offset width data :: rest } = .next t))
    ∧ ((offset, width) ∉ Claim.hostMap →
      step { s with inputs := .read offset width :: rest } = .refused (.undefinedAccess offset width)
      ∧ step { s with inputs := .write offset width data :: rest } = .refused (.undefinedAccess offset width))
    ∧ step { s with inputs := .concurrentAgent :: rest } = .refused .concurrentAgent

/-- A host read returns the register's value, zero-extended, and changes nothing in the FCC (R56, R58); the value goes to the
model's record (log entry 8). -/
def Obligations.HostReadReturnsTheRegister : Prop :=
  ∀ (s : State) (rest : List HostAction) (offset width value : Nat),
    (offset, width, value) ∈ Claim.hostView Config.platform s →
    step { s with inputs := .read offset width :: rest }
      = .next { s with inputs := rest, readData := s.readData ++ [BitVec.ofNat 64 value] }

/-- A host write of an operand register changes that register alone, and a write of a read-only register changes nothing
(R57, R58; the queue is the model's, log entry 1). -/
def Obligations.HostWriteChangesOneOperandRegister : Prop :=
  ∀ (s : State) (rest : List HostAction) (v : Word64),
    step { s with inputs := .write 0x20 64 v :: rest } = .next { s with inputs := rest, opa := v }
    ∧ step { s with inputs := .write 0x28 64 v :: rest } = .next { s with inputs := rest, opb := v }
    ∧ step { s with inputs := .write 0x30 64 v :: rest } = .next { s with inputs := rest, qv := v }
    ∧ step { s with inputs := .write 0x38 64 v :: rest } = .next { s with inputs := rest, qmin := v }
    ∧ step { s with inputs := .write 0x40 64 v :: rest } = .next { s with inputs := rest, qmax := v }
    ∧ step { s with inputs := .write 0x48 32 v :: rest }
        = .next { s with inputs := rest, opid := BitVec.ofNat 32 v.toNat }
    ∧ step { s with inputs := .write 0x50 32 v :: rest }
        = .next { s with inputs := rest, opext := BitVec.ofNat 1 v.toNat }
    ∧ (∀ i : Fin 8, step { s with inputs := .write (0x58 + i.val) 8 v :: rest }
        = .next { s with inputs := rest, pin := s.pin.set i.val (BitVec.ofNat 8 v.toNat) })
    ∧ (∀ p ∈ Claim.readOnlyMap, step { s with inputs := .write p.1 p.2 v :: rest } = .next { s with inputs := rest })

/-! ### The frame store and the converter -/

/-- R100: NEW constructs a zeroed frame from OPID and OPEXT, with STATUS OK and every other register kept. -/
def Obligations.NewConstructsZeroedFrame : Prop :=
  (∀ s : State, exec .new s = .next { s with
      id := s.opid, ext := s.opext, payload := #v[0, 0, 0, 0, 0, 0, 0, 0], mirror := 0, wcur := 0, rcur := 0,
      status := 0x00000000 })
  ∧ (∀ s t : State, exec .new s = .next t → Synchronised t) ∧ Claim.encodedExactlyAs .new 0x01

/-- R101: LOAD constructs a frame from PIN, with the mirror at the free draw; TOMIR after it gives a mirror that does not
depend on the draw (the draw and its counter are the model's form of the free value, log entry 3). -/
def Obligations.LoadCopiesPinAndDrawsTheMirror : Prop :=
  (∀ s : State, ∃ t : State, exec .load s = .next t
    ∧ t = { s with
        id := s.opid, ext := s.opext, payload := s.pin, mirror := Config.loadMirror s.loads, wcur := 0, rcur := 0,
        status := 0x00000000, loads := s.loads + 1 }
    ∧ (∃ u : State, exec .toMir t = .next u ∧ u.mirror = mirrorOf s.pin)
    ∧ ((∀ i : Fin 8, s.pin[i] = 0) → exec .toMir t = .next { t with mirror := 0, status := 0x00000003 }))
  ∧ Claim.encodedExactlyAs .load 0x02

/-- R102: TOMIR writes the mirror from the payload bytes, byte 0 most significant, and reports AMBZERO when it is 0. -/
def Obligations.ToMirRebuildsTheMirror : Prop :=
  (∀ s : State, ∃ t : State, exec .toMir s = .next t
    ∧ t.mirror.toNat = ∑ i : Fin 8, s.payload[i].toNat * 2 ^ (8 * (7 - i.val))
    ∧ t.status = (if t.mirror = 0 then 0x00000003 else 0x00000000)
    ∧ Synchronised t
    ∧ t = { s with mirror := t.mirror, status := t.status })
  ∧ Claim.encodedExactlyAs .toMir 0x03

/-- R103: FROMMIR writes every payload byte from the mirror, always OK, and moves no cursor. -/
def Obligations.FromMirRebuildsThePayload : Prop :=
  (∀ s : State, ∃ t : State, exec .fromMir s = .next t
    ∧ (∀ i : Fin 8, t.payload[i].toNat = Claim.field s.mirror (8 * (7 - i.val)) 8)
    ∧ t.status = 0x00000000
    ∧ Synchronised t
    ∧ t = { s with payload := t.payload, status := t.status })
  ∧ Claim.encodedExactlyAs .fromMir 0x04

/-- R104: FROMMIR then TOMIR keeps the mirror, TOMIR then FROMMIR keeps the payload, and both leave the two in agreement. -/
def Obligations.ConversionsAreInverse : Prop :=
  ∀ s : State,
    (∃ t u : State, exec .fromMir s = .next t ∧ exec .toMir t = .next u ∧ u.mirror = s.mirror ∧ Synchronised u)
    ∧ (∃ t u : State, exec .toMir s = .next t ∧ exec .fromMir t = .next u ∧ u.payload = s.payload ∧ Synchronised u)

/-- A value ENCB wrote at payload bytes a .. a+n-1 stands in the mirror, after TOMIR, with its bytes in reverse
significance (R54). -/
def Obligations.LegacyBytesStandReversedInTheMirror : Prop :=
  ∀ (s : State) (nb : Nat), s.wcur.toNat + nb ≤ 7 →
    ∃ t u : State, exec (.encb nb) s = .next t ∧ exec .toMir t = .next u
      ∧ ∀ k : Nat, k < nb → Claim.field u.mirror (8 * (7 - (s.wcur.toNat + k))) 8 = Claim.field s.opa (8 * k) 8

/-! ### The field codec -/

/-- R125: ENC ORs the whole shifted operand into the mirror, clears nothing, reports the overlap and the signed mark, and
emits the events; out of bounds it reports BOUNDS and changes nothing else. -/
def Obligations.EncOverlaysTheOperand : Prop :=
  ∀ (unit : FieldUnit) (signed : Bool) (start len : Nat) (s : State),
    (64 < Claim.bitCount unit start + Claim.bitCount unit len →
      exec (.enc unit signed start len) s = .next { s with status := 0x00000001 })
    ∧ (Claim.bitCount unit start + Claim.bitCount unit len ≤ 64 →
      ∃ t : State, exec (.enc unit signed start len) s = .next t
        ∧ (∀ j : Nat, j < 64 → t.mirror.getLsbD j
            = (s.mirror.getLsbD j
              || (decide (Claim.bitCount unit start ≤ j) && s.opa.getLsbD (j - Claim.bitCount unit start))))
        ∧ t.status.toNat
            = (if signed then 2 ^ 16 else 0)
              + (if Claim.field s.mirror (Claim.bitCount unit start) (Claim.bitCount unit len) ≠ 0 then 2 ^ 17 else 0)
        ∧ t.diag = s.diag ++ (if Config.platform.diagActive then
            (if signed then [.signed] else [])
              ++ (if Claim.field s.mirror (Claim.bitCount unit start) (Claim.bitCount unit len) ≠ 0
                  then [.overlap] else [])
            else [])
        ∧ t = { s with mirror := t.mirror, status := t.status, diag := t.diag })
    ∧ Claim.encodedAs (.enc unit signed start len) 0x05

/-- R127: DEC writes the field, cast to the target width, to RESULT; AMBZERO when the field before the cast is 0; out of
bounds it reports BOUNDS and changes nothing else. -/
def Obligations.DecReadsTheField : Prop :=
  ∀ (unit : FieldUnit) (tw : TargetWidth) (start len : Nat) (s : State),
    (64 < Claim.bitCount unit start + Claim.bitCount unit len →
      exec (.dec unit tw start len) s = .next { s with status := 0x00000001 })
    ∧ (Claim.bitCount unit start + Claim.bitCount unit len ≤ 64 →
      ∃ t : State, exec (.dec unit tw start len) s = .next t
        ∧ t.result.toNat
            = Claim.field s.mirror (Claim.bitCount unit start) (Claim.bitCount unit len)
              % 2 ^ (match tw with
                | .w8 => 8
                | .w16 => 16
                | .w32 => 32
                | .w64 => 64)
        ∧ t.status
            = (if Claim.field s.mirror (Claim.bitCount unit start) (Claim.bitCount unit len) = 0
                then 0x00000003 else 0x00000000)
        ∧ t = { s with result := t.result, status := t.status })
    ∧ Claim.encodedAs (.dec unit tw start len) 0x06

/-- R129: an ENC or DEC out of bounds changes STATUS alone. -/
def Obligations.BoundsNeverMutate : Prop :=
  ∀ (unit : FieldUnit) (signed : Bool) (tw : TargetWidth) (start len : Nat) (s : State),
    64 < Claim.bitCount unit start + Claim.bitCount unit len →
    exec (.enc unit signed start len) s = .next { s with status := 0x00000001 }
    ∧ exec (.dec unit tw start len) s = .next { s with status := 0x00000001 }

/-- R128: a value that fits its field and the target width, written by ENC into a field of zeros, is read back by DEC, with
CODE OK unless the value is 0. -/
def Obligations.EncThenDecReturnsTheValue : Prop :=
  ∀ (unit : FieldUnit) (signed : Bool) (start len : Nat) (s : State),
    Claim.bitCount unit start + Claim.bitCount unit len ≤ 64 →
    Claim.field s.mirror (Claim.bitCount unit start) (Claim.bitCount unit len) = 0 →
    s.opa.toNat < 2 ^ Claim.bitCount unit len →
    ∃ t : State, exec (.enc unit signed start len) s = .next t
      ∧ ∀ (tw : TargetWidth), s.opa.toNat < 2 ^ targetBits tw →
        ∃ u : State, exec (.dec unit tw start len) t = .next u ∧ u.result = s.opa
          ∧ u.status = (if s.opa = 0 then 0x00000003 else 0x00000000)

/-- R131: ENCB assigns NB little-endian bytes of OPA at WCUR and advances it; past byte 6 it reports BOUNDS and changes
nothing else. -/
def Obligations.EncbAssignsLittleEndianBytes : Prop :=
  ∀ (nb : Nat) (s : State),
    (7 < s.wcur.toNat + nb → exec (.encb nb) s = .next { s with status := 0x00000001 })
    ∧ (s.wcur.toNat + nb ≤ 7 →
      ∃ t : State, exec (.encb nb) s = .next t
        ∧ (∀ i : Fin 8, t.payload[i].toNat
            = if s.wcur.toNat ≤ i.val ∧ i.val < s.wcur.toNat + nb
              then Claim.field s.opa (8 * (i.val - s.wcur.toNat)) 8 else s.payload[i].toNat)
        ∧ t.wcur.toNat = s.wcur.toNat + nb
        ∧ t.status = 0x00000000
        ∧ t = { s with payload := t.payload, wcur := t.wcur, status := t.status })
    ∧ Claim.encodedAs (.encb nb) 0x07

/-- R132: DECB reads NB little-endian bytes at RCUR into RESULT and advances it, also when the value is 0 (AMBZERO); past
byte 6 it reports BOUNDS and changes nothing else. -/
def Obligations.DecbReadsLittleEndianBytes : Prop :=
  ∀ (nb : Nat) (s : State),
    (7 < s.rcur.toNat + nb → exec (.decb nb) s = .next { s with status := 0x00000001 })
    ∧ (s.rcur.toNat + nb ≤ 7 →
      ∃ t : State, exec (.decb nb) s = .next t
        ∧ t.result.toNat = ∑ k ∈ Finset.range nb, (s.payload.getD (s.rcur.toNat + k) 0).toNat * 2 ^ (8 * k)
        ∧ t.rcur.toNat = s.rcur.toNat + nb
        ∧ t.status = (if t.result = 0 then 0x00000003 else 0x00000000)
        ∧ t = { s with result := t.result, rcur := t.rcur, status := t.status })
    ∧ Claim.encodedAs (.decb nb) 0x08

/-- What ENCB wrote at a cursor, DECB reads back at it: the low 8*NB bits of OPA. -/
def Obligations.EncbThenDecbReturnsTheLowBytes : Prop :=
  ∀ (nb : Nat) (s : State), s.wcur.toNat + nb ≤ 7 → s.rcur = s.wcur →
    ∃ t u : State, exec (.encb nb) s = .next t ∧ exec (.decb nb) t = .next u
      ∧ u.result.toNat = s.opa.toNat % 2 ^ (8 * nb) ∧ u.wcur = t.wcur ∧ u.rcur = t.wcur

/-- R133: the encodes neither read nor move RCUR, and the decodes neither read nor move WCUR. -/
def Obligations.CursorsAreIndependent : Prop :=
  ∀ (nb : Nat) (x : BitVec 3) (s : State),
    (∀ i ∈ [Instr.encb nb, Instr.qencb nb], ∃ t : State, exec i s = .next t ∧ t.rcur = s.rcur
      ∧ exec i { s with rcur := x } = .next { t with rcur := x })
    ∧ (∀ i ∈ [Instr.decb nb, Instr.qdecb nb], ∃ t : State, exec i s = .next t ∧ t.wcur = s.wcur
      ∧ exec i { s with wcur := x } = .next { t with wcur := x })

/-- The legacy codec never writes payload byte 7, and what its decodes do does not depend on it (R23, R65, R130). -/
def Obligations.LegacyCodecNeverReachesByteSeven : Prop :=
  ∀ (nb : Nat) (b : Byte) (s : State),
    (∀ i ∈ [Instr.encb nb, Instr.qencb nb], ∃ t : State, exec i s = .next t ∧ t.payload[7] = s.payload[7])
    ∧ (∀ i ∈ [Instr.decb nb, Instr.qdecb nb], ∃ t : State, exec i s = .next t
      ∧ exec i { s with payload := s.payload.set 7 b } = .next { t with payload := s.payload.set 7 b })

/-! ### The quantizer -/

/-- The binary64 value function on patterns whose values are known (R10): 1, -2, 0.1's pattern, the least subnormal, the
greatest finite value, both zeros; the patterns that are not finite; and NV_REAL is the decided +0.0 (R7). -/
def Obligations.BinaryValuesOfKnownPatterns : Prop :=
  val 0x3FF0000000000000#64 = 1 ∧ val 0xC000000000000000#64 = -2
  ∧ val 0x3FB999999999999A#64 = 3602879701896397 / 36028797018963968
  ∧ val 0x0000000000000001#64 = 1 / 2 ^ 1074
  ∧ val 0x7FEFFFFFFFFFFFFF#64 = 2 ^ 1024 - 2 ^ 971
  ∧ val 0x0000000000000000#64 = 0 ∧ val 0x8000000000000000#64 = 0
  ∧ finite 0x7FEFFFFFFFFFFFFF#64 = true ∧ finite 0x7FF0000000000000#64 = false
  ∧ finite 0xFFF0000000000000#64 = false ∧ finite 0x7FF8000000000000#64 = false
  ∧ Config.nvReal = 0x0000000000000000#64

/-- `round64` gives a pattern nearest to the rational, with an even significand on a tie; from 2^1024 - 2^970 on it gives
the infinity of the sign; and round64(0) = +0.0 (R10; the format is general knowledge, log entry 10). -/
def Obligations.RoundingGivesTheNearestPattern : Prop :=
  round64 0 = 0
  ∧ (∀ r : ℚ, |r| < 2 ^ 1024 - 2 ^ 970 →
      finite (round64 r) = true
      ∧ ∀ y : Word64, finite y = true → |val (round64 r) - r| ≤ |val y - r|
        ∧ (|val y - r| = |val (round64 r) - r| → val y ≠ val (round64 r) → (round64 r).getLsbD 0 = false))
  ∧ (∀ r : ℚ, 2 ^ 1024 - 2 ^ 970 ≤ r → round64 r = 0x7FF0000000000000#64)
  ∧ (∀ r : ℚ, r ≤ -(2 ^ 1024 - 2 ^ 970) → round64 r = 0xFFF0000000000000#64)

/-- Rounding the value of a finite non-zero pattern gives the pattern back. -/
def Obligations.RoundingKeepsRepresentableValues : Prop :=
  ∀ x : Word64, finite x = true → val x ≠ 0 → round64 (val x) = x

/-- R153: the bit-range map on an interval: its formula, its range and its endpoint values. -/
def Obligations.BitMapFormulaRangeAndEndpoints : Prop :=
  ∀ (v lo hi : ℚ) (l : Nat), lo ≤ v → v ≤ hi →
    ((qMapBit v lo hi l : ℤ)
      = if l = 0 ∨ hi = lo then 0 else ⌊(v - lo) * (2 ^ l - 1) / (hi - lo) + 1 / 2⌋)
    ∧ qMapBit v lo hi l ≤ 2 ^ l - 1
    ∧ qMapBit lo lo hi l = 0
    ∧ (lo < hi → qMapBit hi lo hi l = 2 ^ l - 1)

/-- R154: the byte map on an interval: its formula, its range and its endpoint values. -/
def Obligations.ByteMapFormulaRangeAndEndpoints : Prop :=
  ∀ (v lo hi : ℚ) (nb : Nat), 1 ≤ nb → nb ≤ 7 → lo ≤ v → v ≤ hi →
    ((qMapByte v lo hi nb : ℤ)
      = if hi = lo then 1 else 1 + ⌊(v - lo) * (2 ^ (8 * nb) - 3) / (hi - lo) + 1 / 2⌋)
    ∧ 1 ≤ qMapByte v lo hi nb ∧ qMapByte v lo hi nb ≤ 2 ^ (8 * nb) - 2
    ∧ qMapByte lo lo hi nb = 1
    ∧ (lo < hi → qMapByte hi lo hi nb = 2 ^ (8 * nb) - 2)

/-- R161: for a fixed interval both maps are non-decreasing in the value. -/
def Obligations.QuantizerMapsAreMonotone : Prop :=
  ∀ (v w lo hi : ℚ) (n : Nat), lo ≤ v → v ≤ w → w ≤ hi →
    qMapBit v lo hi n ≤ qMapBit w lo hi n ∧ qMapByte v lo hi n ≤ qMapByte w lo hi n

/-- The exact decoded value of a quantized value differs from it by at most half a step, within the source's precision
loss (R160, before the one rounding). -/
def Obligations.QuantizerPrecision : Prop :=
  ∀ (v lo hi : ℚ), lo < hi → lo ≤ v → v ≤ hi →
    (∀ l : Nat, 1 ≤ l →
      |qUnmapBit (qMapBit v lo hi l) lo hi l - v| ≤ (hi - lo) / (2 * (2 ^ l - 1))
      ∧ |qUnmapBit (qMapBit v lo hi l) lo hi l - v| ≤ (hi - lo) / 2 ^ l)
    ∧ (∀ nb : Nat, 1 ≤ nb →
      |qUnmapByte (qMapByte v lo hi nb) lo hi nb - v| ≤ (hi - lo) / (2 * (2 ^ (8 * nb) - 3)))

/-- R155: QENC stores the rescaled value as ENC stores an operand; outside the interval it reports DOMAIN, before the bounds
test, and out of bounds BOUNDS, changing nothing else. -/
def Obligations.QencStoresTheRescaledValue : Prop :=
  ∀ (unit : FieldUnit) (start len : Nat) (s : State),
    (¬ Claim.InDomain s → exec (.qenc unit start len) s = .next { s with status := 0x00000002 })
    ∧ (Claim.InDomain s → 64 < Claim.bitCount unit start + Claim.bitCount unit len →
      exec (.qenc unit start len) s = .next { s with status := 0x00000001 })
    ∧ (Claim.InDomain s → Claim.bitCount unit start + Claim.bitCount unit len ≤ 64 →
      ∃ (q : Nat) (t : State), exec (.qenc unit start len) s = .next t
        ∧ (q : ℤ) = (if Claim.bitCount unit len = 0 ∨ val s.qmax = val s.qmin then 0
            else ⌊(val s.qv - val s.qmin) * (2 ^ Claim.bitCount unit len - 1) / (val s.qmax - val s.qmin) + 1 / 2⌋)
        ∧ q < 2 ^ Claim.bitCount unit len
        ∧ t.mirror = s.mirror ||| BitVec.ofNat 64 (q * 2 ^ Claim.bitCount unit start)
        ∧ t.status.toNat
            = (if Claim.field s.mirror (Claim.bitCount unit start) (Claim.bitCount unit len) ≠ 0 then 2 ^ 17 else 0)
        ∧ t.diag = s.diag ++ (if Config.platform.diagActive
              ∧ Claim.field s.mirror (Claim.bitCount unit start) (Claim.bitCount unit len) ≠ 0
            then [.overlap] else [])
        ∧ t = { s with mirror := t.mirror, status := t.status, diag := t.diag })
    ∧ Claim.encodedAs (.qenc unit start len) 0x09

/-- R156: QDEC reports BOUNDS, then AMBZERO for a zero field, then DOMAIN for a bound that is not finite, each with
QRESULT <- NV_REAL; else QRESULT is the exact decoded value rounded once. -/
def Obligations.QdecDequantizesTheField : Prop :=
  ∀ (unit : FieldUnit) (start len : Nat) (s : State),
    (64 < Claim.bitCount unit start + Claim.bitCount unit len →
      exec (.qdec unit start len) s = .next { s with qresult := Config.nvReal, status := 0x00000001 })
    ∧ (Claim.bitCount unit start + Claim.bitCount unit len ≤ 64 →
      Claim.field s.mirror (Claim.bitCount unit start) (Claim.bitCount unit len) = 0 →
      exec (.qdec unit start len) s = .next { s with qresult := Config.nvReal, status := 0x00000003 })
    ∧ (Claim.bitCount unit start + Claim.bitCount unit len ≤ 64 →
      Claim.field s.mirror (Claim.bitCount unit start) (Claim.bitCount unit len) ≠ 0 →
      ¬ (finite s.qmin = true ∧ finite s.qmax = true) →
      exec (.qdec unit start len) s = .next { s with qresult := Config.nvReal, status := 0x00000002 })
    ∧ (Claim.bitCount unit start + Claim.bitCount unit len ≤ 64 →
      Claim.field s.mirror (Claim.bitCount unit start) (Claim.bitCount unit len) ≠ 0 →
      finite s.qmin = true → finite s.qmax = true →
      exec (.qdec unit start len) s = .next { s with
        qresult := round64 (val s.qmin
          + (Claim.field s.mirror (Claim.bitCount unit start) (Claim.bitCount unit len) : ℚ)
            * (val s.qmax - val s.qmin) / (2 ^ Claim.bitCount unit len - 1))
        status := 0x00000000 })
    ∧ Claim.encodedAs (.qdec unit start len) 0x0A

/-- R158: QENCB assigns the bytes of the rescaled value at WCUR and advances it; DOMAIN is reported before BOUNDS, NB = 0 is
BOUNDS, and a failure changes nothing else. -/
def Obligations.QencbStoresTheRescaledValue : Prop :=
  ∀ (nb : Nat) (s : State),
    (¬ Claim.InDomain s → exec (.qencb nb) s = .next { s with status := 0x00000002 })
    ∧ (Claim.InDomain s → nb = 0 ∨ 7 < s.wcur.toNat + nb → exec (.qencb nb) s = .next { s with status := 0x00000001 })
    ∧ (Claim.InDomain s → nb ≠ 0 → s.wcur.toNat + nb ≤ 7 →
      ∃ (q : Nat) (t : State), exec (.qencb nb) s = .next t
        ∧ (q : ℤ) = (if val s.qmax = val s.qmin then 1
            else 1 + ⌊(val s.qv - val s.qmin) * (2 ^ (8 * nb) - 3) / (val s.qmax - val s.qmin) + 1 / 2⌋)
        ∧ 1 ≤ q ∧ q ≤ 2 ^ (8 * nb) - 2
        ∧ (∀ i : Fin 8, t.payload[i].toNat
            = if s.wcur.toNat ≤ i.val ∧ i.val < s.wcur.toNat + nb
              then q / 2 ^ (8 * (i.val - s.wcur.toNat)) % 256 else s.payload[i].toNat)
        ∧ t.wcur.toNat = s.wcur.toNat + nb
        ∧ t.status = 0x00000000
        ∧ t = { s with payload := t.payload, wcur := t.wcur, status := t.status })
    ∧ Claim.encodedAs (.qencb nb) 0x0B

/-- R159: QDECB reports BOUNDS without moving RCUR; after the read RCUR has advanced, and it reports AMBZERO for a zero value,
then DOMAIN for a bound that is not finite, else QRESULT is the exact decoded value rounded once. -/
def Obligations.QdecbDequantizesTheBytes : Prop :=
  ∀ (nb : Nat) (s : State),
    (nb = 0 ∨ 7 < s.rcur.toNat + nb →
      exec (.qdecb nb) s = .next { s with qresult := Config.nvReal, status := 0x00000001 })
    ∧ (nb ≠ 0 → s.rcur.toNat + nb ≤ 7 →
      ∃ (q : Nat) (t : State), exec (.qdecb nb) s = .next t
        ∧ q = ∑ k ∈ Finset.range nb, (s.payload.getD (s.rcur.toNat + k) 0).toNat * 2 ^ (8 * k)
        ∧ t.rcur.toNat = s.rcur.toNat + nb
        ∧ (q = 0 → t.qresult = Config.nvReal ∧ t.status = 0x00000003)
        ∧ (q ≠ 0 → ¬ (finite s.qmin = true ∧ finite s.qmax = true) →
            t.qresult = Config.nvReal ∧ t.status = 0x00000002)
        ∧ (q ≠ 0 → finite s.qmin = true → finite s.qmax = true →
            t.qresult = round64 (val s.qmin + ((q : ℚ) - 1) * (val s.qmax - val s.qmin) / (2 ^ (8 * nb) - 3))
            ∧ t.status = 0x00000000)
        ∧ t = { s with rcur := t.rcur, qresult := t.qresult, status := t.status })
    ∧ Claim.encodedAs (.qdecb nb) 0x0C

/-- QENC of a value into a field of zeros, then QDEC of the field: when the stored code is not 0, the result is the rounding
of a rational within half a step of the value; when it is 0, QDEC reports AMBZERO with NV_REAL (R155, R156, R160, R260). -/
def Obligations.QencThenQdecIsWithinHalfAStep : Prop :=
  ∀ (unit : FieldUnit) (start len : Nat) (s : State),
    Claim.bitCount unit start + Claim.bitCount unit len ≤ 64 → 1 ≤ len → Claim.InDomain s → val s.qmin < val s.qmax →
    Claim.field s.mirror (Claim.bitCount unit start) (Claim.bitCount unit len) = 0 →
    ∃ t u : State, exec (.qenc unit start len) s = .next t ∧ exec (.qdec unit start len) t = .next u
      ∧ ((∃ r : ℚ, u.qresult = round64 r ∧ u.status = 0x00000000
          ∧ |r - val s.qv| ≤ (val s.qmax - val s.qmin) / (2 * (2 ^ Claim.bitCount unit len - 1)))
        ∨ (Claim.field t.mirror (Claim.bitCount unit start) (Claim.bitCount unit len) = 0
          ∧ u.qresult = Config.nvReal ∧ u.status = 0x00000003))
      ∧ (s.qv = s.qmin → u.qresult = Config.nvReal ∧ u.status = 0x00000003)

/-- QENCB then QDECB at the same cursor never reports the sentinel: the result is the rounding of a rational within half a
step of the value (R158, R159, R160). -/
def Obligations.QencbThenQdecbIsWithinHalfAStep : Prop :=
  ∀ (nb : Nat) (s : State), nb ≠ 0 → s.wcur.toNat + nb ≤ 7 → s.rcur = s.wcur → Claim.InDomain s →
    val s.qmin < val s.qmax →
    ∃ (t u : State) (r : ℚ), exec (.qencb nb) s = .next t ∧ exec (.qdecb nb) t = .next u
      ∧ u.qresult = round64 r ∧ u.status = 0x00000000
      ∧ |r - val s.qv| ≤ (val s.qmax - val s.qmin) / (2 * (2 ^ (8 * nb) - 3))

/-! ### The error subfield and the header -/

/-- R183: GETERR reads the error field of the frame's kind from the mirror, always OK. -/
def Obligations.GetErrReadsTheErrorField : Prop :=
  (∀ s : State, exec .getErr s = .next { s with
    result := BitVec.ofNat 64 (Claim.field s.mirror
      (Claim.errorPos Config.platform (Config.platform.messageKindOf s.id))
      (Claim.errorWidth (Config.platform.messageKindOf s.id)))
    status := 0x00000000 })
  ∧ Claim.encodedExactlyAs .getErr 0x0D

/-- R184: SETERR replaces the error field of the frame's kind with the code the policy gives, and no other mirror bit;
RESULT is that code and CHANGED says whether it differs from the stored one. -/
def Obligations.SetErrReplacesTheErrorField : Prop :=
  (∀ s : State, ∃ (t : State) (p w new : Nat), exec .setErr s = .next t
    ∧ p = Claim.errorPos Config.platform (Config.platform.messageKindOf s.id)
    ∧ w = Claim.errorWidth (Config.platform.messageKindOf s.id)
    ∧ new = Claim.codeAfter (Config.platform.messageKindOf s.id) (s.opa.toNat % 256) (Claim.field s.mirror p w)
    ∧ (∀ j : Nat, j < 64 → t.mirror.getLsbD j
        = if p ≤ j ∧ j < p + w then new.testBit (j - p) else s.mirror.getLsbD j)
    ∧ t.result = BitVec.ofNat 64 new
    ∧ t.status = (if new ≠ Claim.field s.mirror p w then 0x00000100 else 0x00000000)
    ∧ t = { s with mirror := t.mirror, result := t.result, status := t.status })
  ∧ Claim.encodedExactlyAs .setErr 0x0E

/-- R185, for every configuration: a set-once field that holds a code keeps it; a current-sensor frame stores 7 for the
code 9 and 5 for the code 5. SETERR is the case of the platform's configuration. -/
def Obligations.SetOnceAndClamp : Prop :=
  (∀ s : State, exec .setErr s = .next (setErrWith Config.platform s))
  ∧ ∀ (c : Config.Params) (s : State),
    (c.messageKindOf s.id = .defaultKind → Claim.field s.mirror 0 8 ≠ 0 →
      setErrWith c s = { s with result := BitVec.ofNat 64 (Claim.field s.mirror 0 8), status := 0x00000000 })
    ∧ (c.messageKindOf s.id = .currentSensor → s.opa = 9 →
      (setErrWith c s).result = 7 ∧ Claim.field (setErrWith c s).mirror 56 3 = 7)
    ∧ (c.messageKindOf s.id = .currentSensor → s.opa = 5 →
      (setErrWith c s).result = 5 ∧ Claim.field (setErrWith c s).mirror 56 3 = 5)

/-- R186, for every configuration: two frames whose identifiers have the same kind, and which agree on OPA's low byte and on the
stored code, get the same RESULT and STATUS from GETERR and from SETERR, and the same error field. -/
def Obligations.ErrorSubfieldIsPure : Prop :=
  ∀ (c : Config.Params) (s s' : State), c.messageKindOf s.id = c.messageKindOf s'.id →
    s.opa.toNat % 256 = s'.opa.toNat % 256 →
    Claim.field s.mirror (Claim.errorPos c (c.messageKindOf s.id)) (Claim.errorWidth (c.messageKindOf s.id))
      = Claim.field s'.mirror (Claim.errorPos c (c.messageKindOf s.id)) (Claim.errorWidth (c.messageKindOf s.id)) →
    (getErrWith c s).result = (getErrWith c s').result
    ∧ (getErrWith c s).status = (getErrWith c s').status
    ∧ (setErrWith c s).result = (setErrWith c s').result
    ∧ (setErrWith c s).status = (setErrWith c s').status
    ∧ Claim.field (setErrWith c s).mirror (Claim.errorPos c (c.messageKindOf s.id))
        (Claim.errorWidth (c.messageKindOf s.id))
      = Claim.field (setErrWith c s').mirror (Claim.errorPos c (c.messageKindOf s.id))
        (Claim.errorWidth (c.messageKindOf s.id))

/-- R201: HDR ORs the sensor identifier at bit 61 and the rolling number at bit 59, unmasked, and reports one overlap for the
two fields as they stood. -/
def Obligations.HdrPacksTheHeader : Prop :=
  (∀ s : State, ∃ t : State, exec .hdr s = .next t
    ∧ (∀ j : Nat, j < 64 → t.mirror.getLsbD j
        = (s.mirror.getLsbD j || (decide (61 ≤ j) && s.opa.getLsbD (j - 61))
          || (decide (59 ≤ j) && s.opb.getLsbD (j - 59))))
    ∧ t.status.toNat = (if Claim.field s.mirror 59 5 ≠ 0 then 2 ^ 17 else 0)
    ∧ t.diag = s.diag ++ (if Config.platform.diagActive ∧ Claim.field s.mirror 59 5 ≠ 0 then [.overlap] else [])
    ∧ t = { s with mirror := t.mirror, status := t.status, diag := t.diag })
  ∧ Claim.encodedExactlyAs .hdr 0x0F

/-! ### The whole machine -/

/-- What a failure changes (R222): BOUNDS changes no register but STATUS, except that QDEC and QDECB write QRESULT <- NV_REAL;
so does DOMAIN, but for QDECB, which has advanced RCUR by NB; and on AMBZERO TOMIR has written a mirror of 0, DEC and DECB a
RESULT of 0, QDEC and QDECB NV_REAL, and DECB and QDECB have advanced RCUR by NB. Every other register is kept. -/
def Obligations.FailuresChangeOnlyWhatTheyMay : Prop :=
  ∀ (i : Instr) (s t : State), exec i s = .next t →
    (statusCode t.status = 1 → t = { s with
      status := t.status, qresult := if Claim.mayWriteQresult i then Config.nvReal else s.qresult })
    ∧ (statusCode t.status = 2 → t.rcur.toNat = s.rcur.toNat + Claim.readCount i
      ∧ t = { s with
        status := t.status, rcur := t.rcur
        qresult := if Claim.mayWriteQresult i then Config.nvReal else s.qresult })
    ∧ (statusCode t.status = 3 → t.rcur.toNat = s.rcur.toNat + Claim.readCount i
      ∧ t = { s with
        status := t.status, rcur := t.rcur
        mirror := if i = .toMir then 0 else s.mirror
        result := if Claim.mayWriteResult i then 0 else s.result
        qresult := if Claim.mayWriteQresult i then Config.nvReal else s.qresult })

/-- R227: whatever the command, the events it appends are those of its warning flags, W_SIGNED before W_OVERLAP, when
DIAG_ACTIVE, and none otherwise; so a failure emits none (R226). The record of events is the model's, log entry 7. -/
def Obligations.EventsAreThoseOfTheWarningFlags : Prop :=
  ∀ (i : Instr) (s t : State), exec i s = .next t →
    t.diag = s.diag ++ (if Config.platform.diagActive then
        (if statusSigned t.status then [.signed] else []) ++ (if statusOverlap t.status then [.overlap] else [])
      else [])
    ∧ (statusCode t.status ≠ 0 → t.diag = s.diag)

/-- A warning and the diagnostics port have no functional effect: whatever DIAG_ACTIVE is, the commands that emit leave the
same registers (R224, R227), and SG changes only W_SIGNED and the events (R122). -/
def Obligations.DiagnosticsHaveNoFunctionalEffect : Prop :=
  ∀ (c c' : Config.Params) (unit : FieldUnit) (signed : Bool) (start len : Nat) (s : State),
    { encWith c unit signed start len s with diag := [] } = { encWith c' unit signed start len s with diag := [] }
    ∧ { qencWith c unit start len s with diag := [] } = { qencWith c' unit start len s with diag := [] }
    ∧ { hdrWith c s with diag := [] } = { hdrWith c' s with diag := [] }
    ∧ { encWith c unit signed start len s with diag := [], status := 0 }
      = { encWith c unit false start len s with diag := [], status := 0 }

/-- Only NEW and LOAD write ID and EXT, so that a frame's kind is fixed between constructions (R21, R22, R27), and no
command writes an operand register. -/
def Obligations.CommandsKeepIdentityAndOperands : Prop :=
  ∀ (i : Instr) (s t : State), exec i s = .next t →
    (Claim.constructs i = false → t.id = s.id ∧ t.ext = s.ext
      ∧ ∀ c : Config.Params, kindOf c t = kindOf c s)
    ∧ t.opa = s.opa ∧ t.opb = s.opb ∧ t.qv = s.qv ∧ t.qmin = s.qmin ∧ t.qmax = s.qmax
    ∧ t.opid = s.opid ∧ t.opext = s.opext ∧ t.pin = s.pin

/-- MIRROR, PAYLOAD, RESULT and QRESULT are written only by the commands R24, R23, R30 and R31 name; so no command but TOMIR
and FROMMIR moves data between the two representations (R255). -/
def Obligations.RegistersHaveOnlyTheirWriters : Prop :=
  ∀ (i : Instr) (s t : State), exec i s = .next t →
    (Claim.mayWriteMirror i = false → t.mirror = s.mirror)
    ∧ (Claim.mayWritePayload i = false → t.payload = s.payload)
    ∧ (Claim.mayWriteResult i = false → t.result = s.result)
    ∧ (Claim.mayWriteQresult i = false → t.qresult = s.qresult)

/-- The cursors never decrease except at NEW and LOAD, which put them at 0 (R25, R26). -/
def Obligations.CursorsNeverDecrease : Prop :=
  ∀ (i : Instr) (s t : State), exec i s = .next t →
    (Claim.constructs i = false → s.wcur.toNat ≤ t.wcur.toNat ∧ s.rcur.toNat ≤ t.rcur.toNat)
    ∧ (Claim.constructs i = true → t.wcur = 0 ∧ t.rcur = 0)

/-- The only commands that clear mirror bits are NEW, LOAD, TOMIR and, in its error field only, SETERR (R256). -/
def Obligations.EncodesNeverClearMirrorBits : Prop :=
  ∀ (i : Instr) (s t : State) (j : Nat), exec i s = .next t → Claim.replacesMirror i = false →
    s.mirror.getLsbD j = true → t.mirror.getLsbD j = false →
    i = .setErr ∧ Claim.errorPos Config.platform (Config.platform.messageKindOf s.id) ≤ j
      ∧ j < Claim.errorPos Config.platform (Config.platform.messageKindOf s.id)
          + Claim.errorWidth (Config.platform.messageKindOf s.id)

/-- The assembler gives every line of R79 whose operands are in range the command with the U, SG and TW of its suffixes; it emits
only instructions that a word can hold, and refuses operands out of range (R79, log entry 19). -/
def Obligations.AssembledCommandsAreEncodable : Prop :=
  (∀ p ∈ Claim.bareCommands, assemble ⟨p.1, [], []⟩ = some p.2)
  ∧ (∀ a b : Nat, a ≤ 127 → b ≤ 127 →
      (∀ p ∈ Claim.encSuffixes, assemble ⟨.enc, p.1, [a, b]⟩ = some (.enc p.2.1 p.2.2 a b))
      ∧ (∀ p ∈ Claim.decSuffixes, assemble ⟨.dec, p.1, [a, b]⟩ = some (.dec p.2.1 p.2.2 a b))
      ∧ (∀ p ∈ Claim.quantizerSuffixes, assemble ⟨.qenc, p.1, [a, b]⟩ = some (.qenc p.2 a b)
          ∧ assemble ⟨.qdec, p.1, [a, b]⟩ = some (.qdec p.2 a b)))
  ∧ (∀ n : Nat, n ≤ 7 →
      assemble ⟨.encb, [], [n]⟩ = some (.encb n) ∧ assemble ⟨.decb, [], [n]⟩ = some (.decb n)
      ∧ assemble ⟨.qencb, [], [n]⟩ = some (.qencb n) ∧ assemble ⟨.qdecb, [], [n]⟩ = some (.qdecb n))
  ∧ (∀ (l : AsmLine) (i : Instr), assemble l = some i → i.wf = true)
  ∧ (∀ (m : Mnemonic) (x : List Suffix) (n : Nat), 8 ≤ n → assemble ⟨m, x, [n]⟩ = none)
  ∧ (∀ (m : Mnemonic) (x : List Suffix) (a b : Nat), 128 ≤ a ∨ 128 ≤ b → assemble ⟨m, x, [a, b]⟩ = none)

/-- ENCBYTE i of one byte on a frame whose mirror is 0, then FROMMIR, leaves the byte at payload index i and 0 elsewhere
(R81, R50; log entries 1, 19). -/
def Obligations.EncByteReachesPayloadByte : Prop :=
  ∀ (s : State) (i : Fin 8), s.mirror = 0 → s.opa.toNat < 256 →
    ∃ a : List HostAction, programActions [.encByte i.val, .syncM2B] = some a
      ∧ ∃ t : State, Host.Core.run Sys2Proof.core 2 { s with inputs := a } = .next t
        ∧ t.status = 0x00000000 ∧ t.inputs = []
        ∧ ∀ k : Fin 8, t.payload[k].toNat = if k = i then s.opa.toNat else 0

/-- The expansions of R81 on split lines (log entry 19), with NEWI's `ext` given or left out (default 0); and ENCBYTE i ORs all of
OPA at bit 8*(7-i). -/
def Obligations.PseudoInstructionsExpand : Prop :=
  (∀ i : Nat, i ≤ 7 →
    lineActions (.encByte i) = lineActions (.command ⟨.enc, [.b], [7 - i, 1]⟩)
    ∧ lineActions (.decByte i) = lineActions (.command ⟨.dec, [.b, .w8], [7 - i, 1]⟩)
    ∧ lineActions (.encByte i) = some [.write 0x00 32 ((encode (.enc .bytes false (7 - i) 1)).setWidth 64)]
    ∧ ∀ s : State, ∃ t : State, exec (.enc .bytes false (7 - i) 1) s = .next t
        ∧ t.mirror = s.mirror ||| s.opa <<< (8 * (7 - i)))
  ∧ lineActions .syncB2M = lineActions (.command ⟨.toMir, [], []⟩)
  ∧ lineActions .syncM2B = lineActions (.command ⟨.fromMir, [], []⟩)
  ∧ (∀ code : Word64, lineActions (.setErrI code) = some [.write 0x20 64 code, .write 0x00 32 0x0000000E])
  ∧ (∀ sid rn : Word64, lineActions (.hdrI sid rn)
      = some [.write 0x20 64 sid, .write 0x28 64 rn, .write 0x00 32 0x0000000F])
  ∧ (∀ id ext : Word64, lineActions (.newI id (some ext))
      = some [.write 0x48 32 id, .write 0x50 32 ext, .write 0x00 32 0x00000001])
  ∧ (∀ id : Word64, lineActions (.newI id none)
      = some [.write 0x48 32 id, .write 0x50 32 0, .write 0x00 32 0x00000001])
end

