-- ==== Sys2Proof/Laws/Decode.lean ====
section
/-! SUPPORT. The command word as a number: what each field of a word is, what the encoding formula gives, and which words
decode. -/

namespace Sys2Proof

theorem startField_eq (w : Word32) : startField w = w.toNat / 2 ^ 9 % 128 := by
  simp [startField, Nat.shiftRight_eq_div_pow]

theorem lenField_eq (w : Word32) : lenField w = w.toNat / 2 ^ 16 % 128 := by
  simp [lenField, Nat.shiftRight_eq_div_pow]

theorem byteCountField_eq (w : Word32) : byteCountField w = w.toNat / 2 ^ 23 % 8 := by
  simp [byteCountField, Nat.shiftRight_eq_div_pow]

theorem opField_toNat (w : Word32) : (opField w).toNat = w.toNat % 32 := by
  simp [opField]

theorem reservedField_eq_zero_iff (w : Word32) : reservedField w = 0 ↔ w.toNat / 2 ^ 26 = 0 := by
  have hw := w.isLt
  have h : (reservedField w).toNat = w.toNat / 2 ^ 26 := by
    simp only [reservedField, BitVec.extractLsb'_toNat, Nat.shiftRight_eq_div_pow]
    omega
  rw [← h]
  constructor
  · intro h0; rw [h0]; rfl
  · intro h0; exact BitVec.eq_of_toNat_eq h0

theorem getLsbD_eq_div (w : Word32) (k : Nat) : w.getLsbD k = decide (w.toNat / 2 ^ k % 2 = 1) := by
  rw [BitVec.getLsbD, Nat.testBit_eq_decide_div_mod_eq]

/-- A word that decodes to a command holds that command's opcode and a zero RSV. -/
theorem decode_opcode {w : Word32} {i : Instr} (h : decode w = .instr i) :
    i.opcode = w.toNat % 32 ∧ w.toNat / 2 ^ 26 = 0 := by
  rw [← reservedField_eq_zero_iff, ← opField_toNat]
  unfold decode at h
  by_cases h1 : reservedField w = 0
  · rw [if_neg (not_not.2 h1)] at h
    refine ⟨?_, h1⟩
    split at h <;> cases h <;> simp only [Instr.opcode, *]
  · rw [if_pos h1] at h; cases h

/-- Which words decode to a command (R76, R77). -/
theorem decode_legal_iff (w : Word32) :
    (∃ i, decode w = .instr i) ↔ (w.toNat / 2 ^ 26 = 0 ∧ 1 ≤ w.toNat % 32 ∧ w.toNat % 32 ≤ 15) := by
  rw [← reservedField_eq_zero_iff, ← opField_toNat]
  have hlt := (opField w).isLt
  unfold decode
  by_cases h1 : reservedField w = 0
  · rw [if_neg (not_not.2 h1)]
    simp only [h1, true_and]
    generalize (opField w).toNat = n at *
    interval_cases n <;> simp
  · rw [if_pos h1]
    simp only [h1, false_and, iff_false]
    rintro ⟨i, h⟩
    cases h

/-- What a word with a zero RSV decodes to, by its OP number (R75, R77). -/
theorem decode_of_op {w : Word32} (hr : w.toNat / 2 ^ 26 = 0) :
    decode w = match w.toNat % 32 with
      | 0x01 => .instr .new
      | 0x02 => .instr .load
      | 0x03 => .instr .toMir
      | 0x04 => .instr .fromMir
      | 0x05 => .instr (.enc (unitField w) (signedField w) (startField w) (lenField w))
      | 0x06 => .instr (.dec (unitField w) (targetWidthField w) (startField w) (lenField w))
      | 0x07 => .instr (.encb (byteCountField w))
      | 0x08 => .instr (.decb (byteCountField w))
      | 0x09 => .instr (.qenc (unitField w) (startField w) (lenField w))
      | 0x0A => .instr (.qdec (unitField w) (startField w) (lenField w))
      | 0x0B => .instr (.qencb (byteCountField w))
      | 0x0C => .instr (.qdecb (byteCountField w))
      | 0x0D => .instr .getErr
      | 0x0E => .instr .setErr
      | 0x0F => .instr .hdr
      | _ => .illegal .opcodeUnassigned := by
  rw [decode, if_neg (not_not.2 ((reservedField_eq_zero_iff w).2 hr)), opField_toNat] <;> rfl

theorem decode_reserved {w : Word32} (hr : w.toNat / 2 ^ 26 ≠ 0) : decode w = .illegal .reservedBitsSet :=
  if_pos fun h => hr ((reservedField_eq_zero_iff w).1 h)

theorem unitField_code (w : Word32) : (unitField w).code = w.toNat / 2 ^ 5 % 2 := by
  rw [unitField, getLsbD_eq_div]
  by_cases h : w.toNat / 2 ^ 5 % 2 = 1
  · rw [if_pos (by simpa using h), h]; rfl
  · rw [if_neg (by simpa using h)]
    have : w.toNat / 2 ^ 5 % 2 = 0 := by omega
    rw [this]; rfl

theorem signedField_toNat (w : Word32) : (signedField w).toNat = w.toNat / 2 ^ 6 % 2 := by
  rw [signedField, getLsbD_eq_div]
  generalize w.toNat / 2 ^ 6 = x
  by_cases h : x % 2 = 1
  · simp [h]
  · have : x % 2 = 0 := by omega
    simp [this]

theorem targetWidthField_code (w : Word32) : (targetWidthField w).code = w.toNat / 2 ^ 7 % 4 := by
  rw [targetWidthField, getLsbD_eq_div, getLsbD_eq_div]
  by_cases h8 : w.toNat / 2 ^ 8 % 2 = 1 <;> by_cases h7 : w.toNat / 2 ^ 7 % 2 = 1 <;>
    simp only [h8, h7, decide_true, decide_false, TargetWidth.code] <;> omega

end Sys2Proof
end

