-- ==== Sys2Proof/Laws/State.lean ====
section
/-! SUPPORT. One lemma per field for each of the named updates of State (finish, raise, emitIf, finishUnlessZero, failDecode),
so that no proof unfolds them. -/

namespace Sys2Proof.Machine

@[simp] theorem finish_id (a b c : Bool) (s : State) : (finish a b c s).id = s.id := rfl
@[simp] theorem finish_ext (a b c : Bool) (s : State) : (finish a b c s).ext = s.ext := rfl
@[simp] theorem finish_payload (a b c : Bool) (s : State) : (finish a b c s).payload = s.payload := rfl
@[simp] theorem finish_mirror (a b c : Bool) (s : State) : (finish a b c s).mirror = s.mirror := rfl
@[simp] theorem finish_wcur (a b c : Bool) (s : State) : (finish a b c s).wcur = s.wcur := rfl
@[simp] theorem finish_rcur (a b c : Bool) (s : State) : (finish a b c s).rcur = s.rcur := rfl
@[simp] theorem finish_status (a b c : Bool) (s : State) : (finish a b c s).status = statusWord .ok a b c := rfl
@[simp] theorem finish_result (a b c : Bool) (s : State) : (finish a b c s).result = s.result := rfl
@[simp] theorem finish_qresult (a b c : Bool) (s : State) : (finish a b c s).qresult = s.qresult := rfl
@[simp] theorem finish_opa (a b c : Bool) (s : State) : (finish a b c s).opa = s.opa := rfl
@[simp] theorem finish_opb (a b c : Bool) (s : State) : (finish a b c s).opb = s.opb := rfl
@[simp] theorem finish_qv (a b c : Bool) (s : State) : (finish a b c s).qv = s.qv := rfl
@[simp] theorem finish_qmin (a b c : Bool) (s : State) : (finish a b c s).qmin = s.qmin := rfl
@[simp] theorem finish_qmax (a b c : Bool) (s : State) : (finish a b c s).qmax = s.qmax := rfl
@[simp] theorem finish_opid (a b c : Bool) (s : State) : (finish a b c s).opid = s.opid := rfl
@[simp] theorem finish_opext (a b c : Bool) (s : State) : (finish a b c s).opext = s.opext := rfl
@[simp] theorem finish_pin (a b c : Bool) (s : State) : (finish a b c s).pin = s.pin := rfl
@[simp] theorem finish_loads (a b c : Bool) (s : State) : (finish a b c s).loads = s.loads := rfl
@[simp] theorem finish_diag (a b c : Bool) (s : State) : (finish a b c s).diag = s.diag := rfl
@[simp] theorem finish_readData (a b c : Bool) (s : State) : (finish a b c s).readData = s.readData := rfl
@[simp] theorem finish_inputs (a b c : Bool) (s : State) : (finish a b c s).inputs = s.inputs := rfl

@[simp] theorem raise_id (k : Code) (s : State) : (raise k s).id = s.id := rfl
@[simp] theorem raise_ext (k : Code) (s : State) : (raise k s).ext = s.ext := rfl
@[simp] theorem raise_payload (k : Code) (s : State) : (raise k s).payload = s.payload := rfl
@[simp] theorem raise_mirror (k : Code) (s : State) : (raise k s).mirror = s.mirror := rfl
@[simp] theorem raise_wcur (k : Code) (s : State) : (raise k s).wcur = s.wcur := rfl
@[simp] theorem raise_rcur (k : Code) (s : State) : (raise k s).rcur = s.rcur := rfl
@[simp] theorem raise_status (k : Code) (s : State) : (raise k s).status = statusWord k false false false := rfl
@[simp] theorem raise_result (k : Code) (s : State) : (raise k s).result = s.result := rfl
@[simp] theorem raise_qresult (k : Code) (s : State) : (raise k s).qresult = s.qresult := rfl
@[simp] theorem raise_opa (k : Code) (s : State) : (raise k s).opa = s.opa := rfl
@[simp] theorem raise_opb (k : Code) (s : State) : (raise k s).opb = s.opb := rfl
@[simp] theorem raise_qv (k : Code) (s : State) : (raise k s).qv = s.qv := rfl
@[simp] theorem raise_qmin (k : Code) (s : State) : (raise k s).qmin = s.qmin := rfl
@[simp] theorem raise_qmax (k : Code) (s : State) : (raise k s).qmax = s.qmax := rfl
@[simp] theorem raise_opid (k : Code) (s : State) : (raise k s).opid = s.opid := rfl
@[simp] theorem raise_opext (k : Code) (s : State) : (raise k s).opext = s.opext := rfl
@[simp] theorem raise_pin (k : Code) (s : State) : (raise k s).pin = s.pin := rfl
@[simp] theorem raise_loads (k : Code) (s : State) : (raise k s).loads = s.loads := rfl
@[simp] theorem raise_diag (k : Code) (s : State) : (raise k s).diag = s.diag := rfl
@[simp] theorem raise_readData (k : Code) (s : State) : (raise k s).readData = s.readData := rfl
@[simp] theorem raise_inputs (k : Code) (s : State) : (raise k s).inputs = s.inputs := rfl

@[simp] theorem emitIf_id (c : Config.Params) (b : Bool) (w : Warning) (s : State) : (emitIf c b w s).id = s.id := rfl
@[simp] theorem emitIf_ext (c : Config.Params) (b : Bool) (w : Warning) (s : State) : (emitIf c b w s).ext = s.ext := rfl
@[simp] theorem emitIf_payload (c : Config.Params) (b : Bool) (w : Warning) (s : State) : (emitIf c b w s).payload = s.payload := rfl
@[simp] theorem emitIf_mirror (c : Config.Params) (b : Bool) (w : Warning) (s : State) : (emitIf c b w s).mirror = s.mirror := rfl
@[simp] theorem emitIf_wcur (c : Config.Params) (b : Bool) (w : Warning) (s : State) : (emitIf c b w s).wcur = s.wcur := rfl
@[simp] theorem emitIf_rcur (c : Config.Params) (b : Bool) (w : Warning) (s : State) : (emitIf c b w s).rcur = s.rcur := rfl
@[simp] theorem emitIf_status (c : Config.Params) (b : Bool) (w : Warning) (s : State) : (emitIf c b w s).status = s.status := rfl
@[simp] theorem emitIf_result (c : Config.Params) (b : Bool) (w : Warning) (s : State) : (emitIf c b w s).result = s.result := rfl
@[simp] theorem emitIf_qresult (c : Config.Params) (b : Bool) (w : Warning) (s : State) : (emitIf c b w s).qresult = s.qresult := rfl
@[simp] theorem emitIf_opa (c : Config.Params) (b : Bool) (w : Warning) (s : State) : (emitIf c b w s).opa = s.opa := rfl
@[simp] theorem emitIf_opb (c : Config.Params) (b : Bool) (w : Warning) (s : State) : (emitIf c b w s).opb = s.opb := rfl
@[simp] theorem emitIf_qv (c : Config.Params) (b : Bool) (w : Warning) (s : State) : (emitIf c b w s).qv = s.qv := rfl
@[simp] theorem emitIf_qmin (c : Config.Params) (b : Bool) (w : Warning) (s : State) : (emitIf c b w s).qmin = s.qmin := rfl
@[simp] theorem emitIf_qmax (c : Config.Params) (b : Bool) (w : Warning) (s : State) : (emitIf c b w s).qmax = s.qmax := rfl
@[simp] theorem emitIf_opid (c : Config.Params) (b : Bool) (w : Warning) (s : State) : (emitIf c b w s).opid = s.opid := rfl
@[simp] theorem emitIf_opext (c : Config.Params) (b : Bool) (w : Warning) (s : State) : (emitIf c b w s).opext = s.opext := rfl
@[simp] theorem emitIf_pin (c : Config.Params) (b : Bool) (w : Warning) (s : State) : (emitIf c b w s).pin = s.pin := rfl
@[simp] theorem emitIf_loads (c : Config.Params) (b : Bool) (w : Warning) (s : State) : (emitIf c b w s).loads = s.loads := rfl
@[simp] theorem emitIf_diag (c : Config.Params) (b : Bool) (w : Warning) (s : State) : (emitIf c b w s).diag = s.diag ++ (if b && c.diagActive then [w] else []) := rfl
@[simp] theorem emitIf_readData (c : Config.Params) (b : Bool) (w : Warning) (s : State) : (emitIf c b w s).readData = s.readData := rfl
@[simp] theorem emitIf_inputs (c : Config.Params) (b : Bool) (w : Warning) (s : State) : (emitIf c b w s).inputs = s.inputs := rfl

@[simp] theorem finishUnlessZero_id (z : Bool) (s : State) : (finishUnlessZero z s).id = s.id := by cases z <;> rfl
@[simp] theorem finishUnlessZero_ext (z : Bool) (s : State) : (finishUnlessZero z s).ext = s.ext := by cases z <;> rfl
@[simp] theorem finishUnlessZero_payload (z : Bool) (s : State) : (finishUnlessZero z s).payload = s.payload := by cases z <;> rfl
@[simp] theorem finishUnlessZero_mirror (z : Bool) (s : State) : (finishUnlessZero z s).mirror = s.mirror := by cases z <;> rfl
@[simp] theorem finishUnlessZero_wcur (z : Bool) (s : State) : (finishUnlessZero z s).wcur = s.wcur := by cases z <;> rfl
@[simp] theorem finishUnlessZero_rcur (z : Bool) (s : State) : (finishUnlessZero z s).rcur = s.rcur := by cases z <;> rfl
@[simp] theorem finishUnlessZero_status (z : Bool) (s : State) :
    (finishUnlessZero z s).status = if z then 0x00000003#32 else 0x00000000#32 := by cases z <;> rfl
@[simp] theorem finishUnlessZero_result (z : Bool) (s : State) : (finishUnlessZero z s).result = s.result := by cases z <;> rfl
@[simp] theorem finishUnlessZero_qresult (z : Bool) (s : State) : (finishUnlessZero z s).qresult = s.qresult := by cases z <;> rfl
@[simp] theorem finishUnlessZero_opa (z : Bool) (s : State) : (finishUnlessZero z s).opa = s.opa := by cases z <;> rfl
@[simp] theorem finishUnlessZero_opb (z : Bool) (s : State) : (finishUnlessZero z s).opb = s.opb := by cases z <;> rfl
@[simp] theorem finishUnlessZero_qv (z : Bool) (s : State) : (finishUnlessZero z s).qv = s.qv := by cases z <;> rfl
@[simp] theorem finishUnlessZero_qmin (z : Bool) (s : State) : (finishUnlessZero z s).qmin = s.qmin := by cases z <;> rfl
@[simp] theorem finishUnlessZero_qmax (z : Bool) (s : State) : (finishUnlessZero z s).qmax = s.qmax := by cases z <;> rfl
@[simp] theorem finishUnlessZero_opid (z : Bool) (s : State) : (finishUnlessZero z s).opid = s.opid := by cases z <;> rfl
@[simp] theorem finishUnlessZero_opext (z : Bool) (s : State) : (finishUnlessZero z s).opext = s.opext := by cases z <;> rfl
@[simp] theorem finishUnlessZero_pin (z : Bool) (s : State) : (finishUnlessZero z s).pin = s.pin := by cases z <;> rfl
@[simp] theorem finishUnlessZero_loads (z : Bool) (s : State) : (finishUnlessZero z s).loads = s.loads := by cases z <;> rfl
@[simp] theorem finishUnlessZero_diag (z : Bool) (s : State) : (finishUnlessZero z s).diag = s.diag := by cases z <;> rfl
@[simp] theorem finishUnlessZero_readData (z : Bool) (s : State) : (finishUnlessZero z s).readData = s.readData := by cases z <;> rfl
@[simp] theorem finishUnlessZero_inputs (z : Bool) (s : State) : (finishUnlessZero z s).inputs = s.inputs := by cases z <;> rfl

@[simp] theorem failDecode_id (k : Code) (s : State) : (failDecode k s).id = s.id := rfl
@[simp] theorem failDecode_ext (k : Code) (s : State) : (failDecode k s).ext = s.ext := rfl
@[simp] theorem failDecode_payload (k : Code) (s : State) : (failDecode k s).payload = s.payload := rfl
@[simp] theorem failDecode_mirror (k : Code) (s : State) : (failDecode k s).mirror = s.mirror := rfl
@[simp] theorem failDecode_wcur (k : Code) (s : State) : (failDecode k s).wcur = s.wcur := rfl
@[simp] theorem failDecode_rcur (k : Code) (s : State) : (failDecode k s).rcur = s.rcur := rfl
@[simp] theorem failDecode_status (k : Code) (s : State) : (failDecode k s).status = statusWord k false false false := rfl
@[simp] theorem failDecode_result (k : Code) (s : State) : (failDecode k s).result = s.result := rfl
@[simp] theorem failDecode_qresult (k : Code) (s : State) : (failDecode k s).qresult = Config.nvReal := rfl
@[simp] theorem failDecode_opa (k : Code) (s : State) : (failDecode k s).opa = s.opa := rfl
@[simp] theorem failDecode_opb (k : Code) (s : State) : (failDecode k s).opb = s.opb := rfl
@[simp] theorem failDecode_qv (k : Code) (s : State) : (failDecode k s).qv = s.qv := rfl
@[simp] theorem failDecode_qmin (k : Code) (s : State) : (failDecode k s).qmin = s.qmin := rfl
@[simp] theorem failDecode_qmax (k : Code) (s : State) : (failDecode k s).qmax = s.qmax := rfl
@[simp] theorem failDecode_opid (k : Code) (s : State) : (failDecode k s).opid = s.opid := rfl
@[simp] theorem failDecode_opext (k : Code) (s : State) : (failDecode k s).opext = s.opext := rfl
@[simp] theorem failDecode_pin (k : Code) (s : State) : (failDecode k s).pin = s.pin := rfl
@[simp] theorem failDecode_loads (k : Code) (s : State) : (failDecode k s).loads = s.loads := rfl
@[simp] theorem failDecode_diag (k : Code) (s : State) : (failDecode k s).diag = s.diag := rfl
@[simp] theorem failDecode_readData (k : Code) (s : State) : (failDecode k s).readData = s.readData := rfl
@[simp] theorem failDecode_inputs (k : Code) (s : State) : (failDecode k s).inputs = s.inputs := rfl

end Sys2Proof.Machine
end

