-- ==== Sys2Proof/Laws/Ops.lean ====
section
/-! SUPPORT. What each shared operation does, said once: bits, numbers and bytes. The provers cite these and do not unfold
the operations. -/

namespace Sys2Proof.Machine

/-! ### Endings of a command, as one record update each -/

theorem finish_eq (a b c : Bool) (s : State) : finish a b c s = { s with status := statusWord .ok a b c } := rfl

theorem raise_eq (k : Code) (s : State) : raise k s = { s with status := statusWord k false false false } := rfl

theorem finishUnlessZero_eq (z : Bool) (s : State) :
    finishUnlessZero z s = { s with status := if z then 0x00000003#32 else 0x00000000#32 } := by
  cases z <;> rfl

theorem failDecode_eq (k : Code) (s : State) :
    failDecode k s = { s with qresult := Config.nvReal, status := statusWord k false false false } := rfl

/-! ### STATUS -/

theorem statusWord_code (k : Code) : statusWord k false false false = BitVec.ofNat 32 k.number := by
  cases k <;> rfl

theorem statusWord_ok_toNat (a b c : Bool) :
    (statusWord .ok a b c).toNat
      = (if a then 2 ^ 8 else 0) + (if b then 2 ^ 16 else 0) + (if c then 2 ^ 17 else 0) := by
  cases a <;> cases b <;> cases c <;> rfl

theorem statusCode_statusWord (k : Code) (a b c : Bool) : statusCode (statusWord k a b c) = k.number := by
  cases k <;> cases a <;> cases b <;> cases c <;> rfl

theorem statusSigned_statusWord (k : Code) (a b c : Bool) : statusSigned (statusWord k a b c) = b := by
  cases k <;> cases a <;> cases b <;> cases c <;> rfl

theorem statusOverlap_statusWord (k : Code) (a b c : Bool) : statusOverlap (statusWord k a b c) = c := by
  cases k <;> cases a <;> cases b <;> cases c <;> rfl

/-! ### Fields of the mirror -/

theorem fieldMask_getLsbD (s l j : Nat) :
    (fieldMask s l).getLsbD j = (decide (j < 64) && (decide (s ≤ j) && decide (j < s + l))) := by
  rw [fieldMask, BitVec.getLsbD_ofNat, Nat.testBit_shiftLeft, Nat.testBit_two_pow_sub_one]
  by_cases h1 : j < 64 <;> by_cases h2 : s ≤ j <;> by_cases h3 : j < s + l <;> simp [h1, h2, h3] <;> omega

/-- `Extract(s, l)` is the number the field holds (R126). -/
theorem extractField_toNat (m : Word64) (s l : Nat) : (extractField m s l).toNat = m.toNat / 2 ^ s % 2 ^ l := by
  apply Nat.eq_of_testBit_eq
  intro j
  have h : (extractField m s l).toNat.testBit j = (extractField m s l).getLsbD j := rfl
  rw [h, extractField, BitVec.getLsbD_ushiftRight, BitVec.getLsbD_and, fieldMask_getLsbD, Nat.testBit_mod_two_pow,
    ← Nat.shiftRight_eq_div_pow, Nat.testBit_shiftRight]
  have hm : m.toNat.testBit (s + j) = m.getLsbD (s + j) := rfl
  rw [hm]
  by_cases h1 : s + j < 64
  · by_cases h2 : j < l <;> simp [h1, h2]
  · simp [BitVec.getLsbD_of_ge m (s + j) (by omega)]

theorem overlaps_eq (m : Word64) (s l : Nat) : overlaps m s l = decide (m.toNat / 2 ^ s % 2 ^ l ≠ 0) := by
  rw [overlaps, ← extractField_toNat]
  congr 1
  apply propext
  rw [not_iff_not, extractField]
  constructor
  · intro h
    rw [h]; simp
  · intro h
    apply BitVec.eq_of_getLsbD_eq
    intro j hj
    rw [BitVec.getLsbD_and, fieldMask_getLsbD]
    by_cases hs : s ≤ j ∧ j < s + l
    · have hz := congrArg (fun n : Nat => n.testBit (j - s)) h
      have e : ((m &&& fieldMask s l) >>> s).toNat.testBit (j - s) = ((m &&& fieldMask s l) >>> s).getLsbD (j - s) := rfl
      simp only [e, BitVec.getLsbD_ushiftRight, Nat.add_sub_cancel' hs.1, BitVec.getLsbD_and, fieldMask_getLsbD,
        Nat.zero_testBit] at hz
      rw [hz]; simp
    · have : (decide (s ≤ j) && decide (j < s + l)) = false := by
        by_cases h1 : s ≤ j <;> simp_all
      simp [this]

theorem overlay_getLsbD (m v : Word64) (s j : Nat) (hj : j < 64) :
    (overlay m v s).getLsbD j = (m.getLsbD j || (decide (s ≤ j) && v.getLsbD (j - s))) := by
  rw [overlay, BitVec.getLsbD_or, BitVec.getLsbD_shiftLeft]
  by_cases h : s ≤ j
  · simp [h, hj, Nat.not_lt.2 h]
  · simp [h, Nat.lt_of_not_le h]

theorem replaceField_getLsbD (m : Word64) (p w n j : Nat) (hn : n < 2 ^ w) (hj : j < 64) :
    (replaceField m p w n).getLsbD j = if p ≤ j ∧ j < p + w then n.testBit (j - p) else m.getLsbD j := by
  rw [replaceField, BitVec.getLsbD_or, BitVec.getLsbD_and, BitVec.getLsbD_not, fieldMask_getLsbD, BitVec.getLsbD_ofNat,
    Nat.testBit_shiftLeft]
  by_cases h1 : p ≤ j
  · by_cases h2 : j < p + w
    · simp [hj, h1, h2]
    · have : n.testBit (j - p) = false := by
        apply Nat.testBit_lt_two_pow
        exact lt_of_lt_of_le hn (Nat.pow_le_pow_right (by norm_num) (by omega))
      simp [hj, h1, h2, this]
  · simp [hj, h1]

/-- Bit j of an extracted field (R126). -/
theorem extractField_getLsbD (m : Word64) (s l j : Nat) :
    (extractField m s l).getLsbD j = (decide (j < l) && m.getLsbD (s + j)) := by
  rw [extractField, BitVec.getLsbD_ushiftRight, BitVec.getLsbD_and, fieldMask_getLsbD]
  by_cases h1 : s + j < 64
  · by_cases h2 : j < l <;> simp [h1, h2]
  · simp [BitVec.getLsbD_of_ge m (s + j) (by omega)]

/-- The overlap test, bit by bit: a field is clear when each of its bits is (R124). -/
theorem overlaps_eq_false_iff (m : Word64) (s l : Nat) :
    overlaps m s l = false ↔ ∀ j, s ≤ j → j < s + l → m.getLsbD j = false := by
  have e : overlaps m s l = false ↔ extractField m s l = 0 := by
    rw [overlaps_eq, ← extractField_toNat, decide_eq_false_iff_not, not_not]
    exact ⟨fun h => BitVec.eq_of_toNat_eq h, fun h => by rw [h]; rfl⟩
  rw [e]
  constructor
  · intro h j h1 h2
    have hj := congrArg (fun x : Word64 => x.getLsbD (j - s)) h
    simpa only [extractField_getLsbD, Nat.add_sub_cancel' h1, show j - s < l by omega, decide_true, Bool.true_and]
      using hj.trans BitVec.getLsbD_zero
  · intro h
    apply BitVec.eq_of_getLsbD_eq
    intro j _
    rw [extractField_getLsbD]
    by_cases h2 : j < l
    · rw [h (s + j) (by omega) (by omega)]; simp
    · simp [h2]

/-- A field that was clear holds, after the merge of a value that fits it, that value (R123, R128). -/
theorem extractField_overlay (m v : Word64) (s l : Nat) (hm : overlaps m s l = false) (hv : v.toNat < 2 ^ l)
    (h : s + l ≤ 64) : extractField (overlay m v s) s l = v := by
  apply BitVec.eq_of_getLsbD_eq
  intro j hj
  rw [extractField_getLsbD]
  by_cases hl : j < l
  · rw [overlay_getLsbD _ _ _ _ (by omega), (overlaps_eq_false_iff m s l).1 hm (s + j) (by omega) (by omega)]
    simp [hl]
  · have hz : v.getLsbD j = false :=
      Nat.testBit_lt_two_pow (lt_of_lt_of_le hv (Nat.pow_le_pow_right (by norm_num) (by omega)))
    simp [hl, hz]

/-- A replaced field holds the new code (R184). -/
theorem extractField_replaceField (m : Word64) (p w n : Nat) (hn : n < 2 ^ w) (h : p + w ≤ 64) :
    extractField (replaceField m p w n) p w = BitVec.ofNat 64 n := by
  apply BitVec.eq_of_getLsbD_eq
  intro j hj
  rw [extractField_getLsbD, BitVec.getLsbD_ofNat]
  by_cases hl : j < w
  · rw [replaceField_getLsbD _ _ _ _ _ hn (by omega), if_pos (by omega), Nat.add_sub_cancel_left]
    simp [hl, hj]
  · have hz : n.testBit j = false :=
      Nat.testBit_lt_two_pow (lt_of_lt_of_le hn (Nat.pow_le_pow_right (by norm_num) (by omega)))
    simp [hl, hz]

/-- Replacing a field by what it holds changes nothing (R182, a set-once field that keeps its code). -/
theorem replaceField_extractField (m : Word64) (p w : Nat) : replaceField m p w (extractField m p w).toNat = m := by
  have hn : (extractField m p w).toNat < 2 ^ w := by
    rw [extractField_toNat]
    exact Nat.mod_lt _ (by positivity)
  apply BitVec.eq_of_getLsbD_eq
  intro j hj
  rw [replaceField_getLsbD _ _ _ _ _ hn hj]
  split
  · have e : (extractField m p w).toNat.testBit (j - p) = (extractField m p w).getLsbD (j - p) := rfl
    rw [e, extractField_getLsbD, show p + (j - p) = j by omega]
    simp; omega
  · rfl

theorem castTo_toNat (tw : TargetWidth) (f : Word64) : (castTo tw f).toNat = f.toNat % 2 ^ targetBits tw := by
  have := f.isLt
  cases tw <;> simp [castTo, targetBits] <;> omega

/-! ### The two conversions -/

theorem mirrorByte_toNat (m : Word64) (j : Nat) : (mirrorByte m j).toNat = m.toNat / 2 ^ (8 * j) % 2 ^ 8 := by
  simp [mirrorByte, Nat.shiftRight_eq_div_pow]

theorem mirrorOf_toNat (p : Payload) :
    (mirrorOf p).toNat = p[0].toNat * 2 ^ 56 + p[1].toNat * 2 ^ 48 + p[2].toNat * 2 ^ 40 + p[3].toNat * 2 ^ 32
      + p[4].toNat * 2 ^ 24 + p[5].toNat * 2 ^ 16 + p[6].toNat * 2 ^ 8 + p[7].toNat := by
  have h0 := p[0].isLt; have h1 := p[1].isLt; have h2 := p[2].isLt; have h3 := p[3].isLt
  have h4 := p[4].isLt; have h5 := p[5].isLt; have h6 := p[6].isLt; have h7 := p[7].isLt
  unfold mirrorOf
  rw [BitVec.toNat_ofNat]
  simp only [Nat.shiftLeft_eq]
  omega

theorem payloadOf_get (m : Word64) (i : Fin 8) : (payloadOf m)[i] = mirrorByte m (7 - i.val) := by
  fin_cases i <;> rfl

/-- The mirror byte a payload byte lands in (R50). -/
theorem mirrorByte_mirrorOf (p : Payload) (i : Fin 8) : mirrorByte (mirrorOf p) (7 - i.val) = p[i] := by
  have h0 := p[0].isLt; have h1 := p[1].isLt; have h2 := p[2].isLt; have h3 := p[3].isLt
  have h4 := p[4].isLt; have h5 := p[5].isLt; have h6 := p[6].isLt; have h7 := p[7].isLt
  apply BitVec.eq_of_toNat_eq
  rw [mirrorByte_toNat, mirrorOf_toNat]
  generalize hp0 : p[0].toNat = a0 at *; generalize hp1 : p[1].toNat = a1 at *
  generalize hp2 : p[2].toNat = a2 at *; generalize hp3 : p[3].toNat = a3 at *
  generalize hp4 : p[4].toNat = a4 at *; generalize hp5 : p[5].toNat = a5 at *
  generalize hp6 : p[6].toNat = a6 at *; generalize hp7 : p[7].toNat = a7 at *
  obtain ⟨i, hi⟩ := i
  interval_cases i <;> simp only [Fin.getElem_fin] <;> omega

theorem payloadOf_mirrorOf (p : Payload) : payloadOf (mirrorOf p) = p := by
  ext i hi : 1
  exact (payloadOf_get (mirrorOf p) ⟨i, hi⟩).trans (mirrorByte_mirrorOf p ⟨i, hi⟩)

theorem mirrorOf_payloadOf (m : Word64) : mirrorOf (payloadOf m) = m := by
  have := m.isLt
  apply BitVec.eq_of_toNat_eq
  rw [mirrorOf_toNat]
  simp only [payloadOf, Vector.getElem_mk, List.getElem_toArray, List.getElem_cons_zero, List.getElem_cons_succ,
    mirrorByte_toNat]
  omega

/-! ### The legacy codec -/

theorem legacyOK_iff (c : BitVec 3) (n : Nat) : legacyOK c n = true ↔ c.toNat + n ≤ 7 := by
  simp [legacyOK]

theorem advance_toNat (c : BitVec 3) (n : Nat) (h : c.toNat + n ≤ 7) : (advance c n).toNat = c.toNat + n := by
  rw [advance, BitVec.toNat_ofNat]
  exact Nat.mod_eq_of_lt (by omega)

theorem byteOf_toNat (v k : Nat) : (byteOf v k).toNat = v / 2 ^ (8 * k) % 2 ^ 8 := by
  simp [byteOf, Nat.shiftRight_eq_div_pow]

theorem memRead_eq_sum (p : Payload) (a n : Nat) :
    memRead p a n = ∑ k ∈ Finset.range n, (payloadByte p (a + k)).toNat * 2 ^ (8 * k) := by
  induction n with
  | zero => rfl
  | succ n ih => rw [memRead, ih, Finset.sum_range_succ, Nat.shiftLeft_eq]

theorem memRead_lt (p : Payload) (a n : Nat) : memRead p a n < 2 ^ (8 * n) := by
  induction n with
  | zero => simp [memRead]
  | succ n ih =>
    have hb := (payloadByte p (a + n)).isLt
    have hp : 2 ^ (8 * (n + 1)) = 256 * 2 ^ (8 * n) := by rw [Nat.mul_add, pow_add]; ring
    rw [memRead, Nat.shiftLeft_eq, hp]
    have : (payloadByte p (a + n)).toNat * 2 ^ (8 * n) ≤ 255 * 2 ^ (8 * n) := Nat.mul_le_mul_right _ (by omega)
    omega

theorem payloadByte_eq (p : Payload) (i : Fin 8) : payloadByte p i.val = p[i] := by
  simp [payloadByte, Vector.getD]

theorem memWrite_get (p : Payload) (a n v : Nat) (i : Fin 8) :
    (memWrite p a n v)[i] = if a ≤ i.val ∧ i.val < a + n then byteOf v (i.val - a) else p[i] := by
  induction n with
  | zero => rw [memWrite, if_neg (by omega)]
  | succ n ih =>
    rw [memWrite]
    simp only [Fin.getElem_fin] at ih ⊢
    rw [Vector.getElem_setIfInBounds]
    by_cases h : a + n = i.val
    · rw [if_pos h, if_pos (by omega), show i.val - a = n by omega]
    · rw [if_neg h, ih]
      by_cases h2 : a ≤ i.val ∧ i.val < a + n
      · rw [if_pos h2, if_pos (by omega)]
      · rw [if_neg h2, if_neg (by omega)]

end Sys2Proof.Machine
end

