-- ==== Sys2Proof/Laws/Step.lean ====
section
/-! SUPPORT. What one step can do, said once, and the run of several steps. -/

namespace Sys2Proof.Machine

/-- `accessed` finds a register at its own offset and width, and no other. -/
theorem accessed_eq_some_iff (offset width : Nat) (r : HostReg) :
    accessed offset width = some r ↔ regOffset r = offset ∧ regWidth r = width := by
  have h1 : ∀ r : HostReg, accessed (regOffset r) (regWidth r) = some r := by
    intro r; cases r <;> first | rfl | (rename_i i; revert i; decide)
  constructor
  · intro h
    have p := List.find?_some h
    simpa only [Bool.and_eq_true, decide_eq_true_eq] using p
  · rintro ⟨rfl, rfl⟩
    exact h1 r

/-- A 32-bit write at offset 0 is a command. -/
theorem accessed_cmd : accessed 0x00 32 = some .cmd := rfl

/-- The step whose host action is a write of CMD. -/
theorem step_command (s : State) (data : Word64) (rest : List HostAction)
    (h : s.inputs = .write 0x00 32 data :: rest) :
    step s = runCommand (data.setWidth 32) { s with inputs := rest } := by
  simp only [step, hostStep, h, perform, hostWrite, accessed_cmd]

theorem runCommand_instr {w : Word32} {i : Instr} (h : decode w = .instr i) (s : State) : runCommand w s = exec i s := by
  simp only [runCommand, h]

/-- A step that answers a next state is one of these: the FCC waits, runs a command, refuses an illegal word by STATUS, takes a
host write, answers a host read, or is reset. -/
theorem step_cases {s t : State} (h : step s = .next t) :
    (s.inputs = [] ∧ t = s)
    ∨ (∃ (a : HostAction) (rest : List HostAction), s.inputs = a :: rest
      ∧ ((∃ (data : Word64) (i : Instr), a = .write 0x00 32 data ∧ decode (data.setWidth 32) = .instr i
            ∧ exec i { s with inputs := rest } = .next t)
        ∨ (∃ data : Word64, a = .write 0x00 32 data ∧ (∀ i, decode (data.setWidth 32) ≠ .instr i)
            ∧ t = raise .illegal { s with inputs := rest })
        ∨ (∃ (r : HostReg) (data : Word64), a = .write (regOffset r) (regWidth r) data ∧ r ≠ .cmd
            ∧ t = writeReg r data { s with inputs := rest })
        ∨ (∃ r : HostReg, a = .read (regOffset r) (regWidth r)
            ∧ t = { s with inputs := rest, readData := s.readData ++ [regValue Config.platform r { s with inputs := rest }] })
        ∨ (a = .reset ∧ t = resetRegisters { s with inputs := rest }))) := by
  unfold step hostStep at h
  split at h
  · rename_i hi
    cases h
    exact .inl ⟨hi, rfl⟩
  · rename_i a rest hi
    refine .inr ⟨a, rest, hi, ?_⟩
    unfold perform at h
    split at h
    · rename_i offset width data
      unfold hostWrite at h
      split at h
      · rename_i hr
        obtain ⟨ho, hw⟩ := (accessed_eq_some_iff _ _ _).1 hr
        cases ho; cases hw
        unfold runCommand at h
        split at h
        · rename_i i hd
          exact .inl ⟨data, i, rfl, hd, h⟩
        · rename_i why hd
          cases h
          refine .inr (.inl ⟨data, rfl, ?_, rfl⟩)
          intro i hi
          rw [hd] at hi; cases hi
      · rename_i r hne hr
        obtain ⟨ho, hw⟩ := (accessed_eq_some_iff _ _ _).1 hr
        cases ho; cases hw; cases h
        refine .inr (.inr (.inl ⟨r, data, rfl, ?_, rfl⟩))
        rintro rfl
        exact hne rfl
      · cases h
    · rename_i offset width
      unfold hostRead at h
      split at h
      · rename_i r hr
        obtain ⟨ho, hw⟩ := (accessed_eq_some_iff _ _ _).1 hr
        cases ho; cases hw; cases h
        exact .inr (.inr (.inr (.inl ⟨r, rfl, rfl⟩)))
      · cases h
    · cases h
      exact .inr (.inr (.inr (.inr ⟨rfl, rfl⟩)))
    · cases h

/-- One more step of a run, from the step's outcome. -/
theorem run_succ_of_step {s t : State} (n : Nat) (h : step s = .next t) :
    Host.Core.run Sys2Proof.core (n + 1) s = Host.Core.run Sys2Proof.core n t := by
  have hs : ∀ (M : Host.Core) (x y : M.State), M.step x = .next y → M.run (n + 1) x = M.run n y := by
    intro M x y hxy
    rw [Host.Core.run, hxy]
  exact hs Sys2Proof.core s t h

theorem run_zero (s : State) : Host.Core.run Sys2Proof.core 0 s = .next s := rfl

end Sys2Proof.Machine
end

