-- ==== Sys2Proof/Laws/Exec.lean ====
section
/-! SUPPORT. What exec answers for each command that tests something first, one equation per outcome of its tests; the provers
rewrite with these instead of unfolding the meanings. -/

namespace Sys2Proof.Machine

theorem inBounds_iff (s l : Nat) : inBounds s l = true ↔ s + l ≤ 64 := by simp [inBounds]

theorem toBits_bits (n : Nat) : toBits .bits n = n := rfl

theorem toBits_bytes (n : Nat) : toBits .bytes n = n * 8 := rfl

theorem inDomain_iff (qv qmin qmax : Word64) :
    inDomain qv qmin qmax = true
      ↔ finite qv = true ∧ finite qmin = true ∧ finite qmax = true ∧ val qmin ≤ val qv ∧ val qv ≤ val qmax := by
  simp [inDomain, and_assoc]

theorem boundsFinite_iff (qmin qmax : Word64) :
    boundsFinite qmin qmax = true ↔ finite qmin = true ∧ finite qmax = true := by
  simp [boundsFinite]

/-! ### ENC and DEC -/

theorem exec_enc_inBounds {unit : FieldUnit} {start len : Nat} (signed : Bool) (s : State)
    (h : toBits unit start + toBits unit len ≤ 64) :
    exec (.enc unit signed start len) s
      = .next (encField Config.platform signed (toBits unit start) (toBits unit len) s) := by
  rw [exec, execEnc, encWith, if_pos ((inBounds_iff _ _).2 h)]

theorem exec_enc_outOfBounds {unit : FieldUnit} {start len : Nat} (signed : Bool) (s : State)
    (h : 64 < toBits unit start + toBits unit len) :
    exec (.enc unit signed start len) s = .next (raise .bounds s) := by
  rw [exec, execEnc, encWith, if_neg (by rw [inBounds_iff]; omega)]

theorem exec_dec_inBounds {unit : FieldUnit} {start len : Nat} (tw : TargetWidth) (s : State)
    (h : toBits unit start + toBits unit len ≤ 64) :
    exec (.dec unit tw start len) s
      = .next (finishDec tw (extractField s.mirror (toBits unit start) (toBits unit len)) s) := by
  rw [exec, execDec, if_pos ((inBounds_iff _ _).2 h)]

theorem exec_dec_outOfBounds {unit : FieldUnit} {start len : Nat} (tw : TargetWidth) (s : State)
    (h : 64 < toBits unit start + toBits unit len) :
    exec (.dec unit tw start len) s = .next (raise .bounds s) := by
  rw [exec, execDec, if_neg (by rw [inBounds_iff]; omega)]

/-! ### ENCB and DECB -/

theorem exec_encb_inBounds {nb : Nat} {s : State} (h : s.wcur.toNat + nb ≤ 7) :
    exec (.encb nb) s = .next (finish false false false (writeBytes nb s.opa.toNat s)) := by
  rw [exec, execEncb, if_pos ((legacyOK_iff _ _).2 h)]

theorem exec_encb_outOfBounds {nb : Nat} {s : State} (h : 7 < s.wcur.toNat + nb) :
    exec (.encb nb) s = .next (raise .bounds s) := by
  rw [exec, execEncb, if_neg (by rw [legacyOK_iff]; omega)]

theorem exec_decb_inBounds {nb : Nat} {s : State} (h : s.rcur.toNat + nb ≤ 7) :
    exec (.decb nb) s = .next (finishDecb nb (readBytes nb s) s) := by
  rw [exec, execDecb, if_pos ((legacyOK_iff _ _).2 h)]

theorem exec_decb_outOfBounds {nb : Nat} {s : State} (h : 7 < s.rcur.toNat + nb) :
    exec (.decb nb) s = .next (raise .bounds s) := by
  rw [exec, execDecb, if_neg (by rw [legacyOK_iff]; omega)]

/-! ### The quantizer's commands -/

theorem exec_qenc_outOfDomain (unit : FieldUnit) (start len : Nat) {s : State}
    (h : inDomain s.qv s.qmin s.qmax = false) : exec (.qenc unit start len) s = .next (raise .domain s) := by
  rw [exec, execQenc, qencWith, if_neg (by rw [h]; decide)]

theorem exec_qenc_outOfBounds {unit : FieldUnit} {start len : Nat} {s : State}
    (hd : inDomain s.qv s.qmin s.qmax = true) (h : 64 < toBits unit start + toBits unit len) :
    exec (.qenc unit start len) s = .next (raise .bounds s) := by
  rw [exec, execQenc, qencWith, if_pos hd, if_neg (by rw [inBounds_iff]; omega)]

theorem exec_qenc_inBounds {unit : FieldUnit} {start len : Nat} {s : State}
    (hd : inDomain s.qv s.qmin s.qmax = true) (h : toBits unit start + toBits unit len ≤ 64) :
    exec (.qenc unit start len) s
      = .next (qencField Config.platform (qMapBit (val s.qv) (val s.qmin) (val s.qmax) (toBits unit len))
          (toBits unit start) (toBits unit len) s) := by
  rw [exec, execQenc, qencWith, if_pos hd, if_pos ((inBounds_iff _ _).2 h)]

theorem exec_qdec_outOfBounds {unit : FieldUnit} {start len : Nat} {s : State}
    (h : 64 < toBits unit start + toBits unit len) :
    exec (.qdec unit start len) s = .next (failDecode .bounds s) := by
  rw [exec, execQdec, if_neg (by rw [inBounds_iff]; omega)]

theorem exec_qdec_inBounds {unit : FieldUnit} {start len : Nat} {s : State}
    (h : toBits unit start + toBits unit len ≤ 64) :
    exec (.qdec unit start len) s
      = .next (finishQdec (extractField s.mirror (toBits unit start) (toBits unit len)) (toBits unit len) s) := by
  rw [exec, execQdec, if_pos ((inBounds_iff _ _).2 h)]

theorem exec_qencb_outOfDomain (nb : Nat) {s : State} (h : inDomain s.qv s.qmin s.qmax = false) :
    exec (.qencb nb) s = .next (raise .domain s) := by
  rw [exec, execQencb, if_neg (by rw [h]; decide)]

theorem exec_qencb_outOfBounds {nb : Nat} {s : State} (hd : inDomain s.qv s.qmin s.qmax = true)
    (h : nb = 0 ∨ 7 < s.wcur.toNat + nb) : exec (.qencb nb) s = .next (raise .bounds s) := by
  rw [exec, execQencb, if_pos hd, if_neg (by rw [Bool.and_eq_true, legacyOK_iff, decide_eq_true_eq]; omega)]

theorem exec_qencb_inBounds {nb : Nat} {s : State} (hd : inDomain s.qv s.qmin s.qmax = true) (hn : nb ≠ 0)
    (h : s.wcur.toNat + nb ≤ 7) :
    exec (.qencb nb) s = .next (finish false false false
      (writeBytes nb (qMapByte (val s.qv) (val s.qmin) (val s.qmax) nb) s)) := by
  rw [exec, execQencb, if_pos hd, if_pos (by rw [Bool.and_eq_true, legacyOK_iff, decide_eq_true_eq]; exact ⟨hn, h⟩)]

theorem exec_qdecb_outOfBounds {nb : Nat} {s : State} (h : nb = 0 ∨ 7 < s.rcur.toNat + nb) :
    exec (.qdecb nb) s = .next (failDecode .bounds s) := by
  rw [exec, execQdecb, if_neg (by rw [Bool.and_eq_true, legacyOK_iff, decide_eq_true_eq]; omega)]

theorem exec_qdecb_inBounds {nb : Nat} {s : State} (hn : nb ≠ 0) (h : s.rcur.toNat + nb ≤ 7) :
    exec (.qdecb nb) s = .next (finishQdecb (readBytes nb s) nb { s with rcur := advance s.rcur nb }) := by
  rw [exec, execQdecb, if_pos (by rw [Bool.and_eq_true, legacyOK_iff, decide_eq_true_eq]; exact ⟨hn, h⟩)]

/-! ### SETERR and HDR under a configuration -/

theorem storedCode_eq (c : Config.Params) (s : State) :
    storedCode c s = s.mirror.toNat / 2 ^ (errorRow c s).pos % 2 ^ (errorRow c s).width :=
  extractField_toNat _ _ _

/-- The error field of every kind lies in the mirror (R180). -/
theorem policyRow_fits (c : Config.Params) (k : Config.Kind) : (policyRow c k).pos + (policyRow c k).width ≤ 64 := by
  cases k <;> simp only [policyRow] <;> omega

/-- The new code fits the field, so that SETERR writes no other bit. -/
theorem newCode_lt (row : PolicyRow) (req cur : Nat) (h : cur < 2 ^ row.width) : newCode row req cur < 2 ^ row.width := by
  unfold newCode
  split
  · exact h
  · unfold clampCode
    have : 0 < 2 ^ row.width := by positivity
    split <;> omega

end Sys2Proof.Machine
end

