-- ==== Sys2Proof/Laws/PerInstr.lean ====
section
/-! SUPPORT. The statements made per instruction: OpcodeBits says that the five OP bits of an encoding are the opcode the map
gives the instruction (R75). -/

namespace Sys2Proof.Laws.OpcodeBits

/-- The OP field of the encoding is the opcode (R70, R75). -/
def Statement (i : Instr) : Prop := opField (encode i) = BitVec.ofNat 5 i.opcode

/-- Every shifted field stands above the OP bits. -/
theorem opField_encodeFields (op u sg tw start len nb : Nat) :
    opField (encodeFields op u sg tw start len nb) = BitVec.ofNat 5 op := by
  apply BitVec.eq_of_getLsbD_eq
  intro k hk
  have h32 : k < 32 := by omega
  have h (x n : Nat) (hn : 5 ≤ n) : (BitVec.ofNat 32 x <<< n).getLsbD k = false := by
    simp [BitVec.getLsbD_shiftLeft, show k < n by omega]
  simp (disch := omega) only [opField, encodeFields, BitVec.getLsbD_extractLsb', BitVec.getLsbD_or, Nat.zero_add, h,
    Bool.or_false, BitVec.getLsbD_ofNat, hk, h32, decide_true, Bool.true_and]

theorem new : Statement .new := opField_encodeFields ..
theorem load : Statement .load := opField_encodeFields ..
theorem toMir : Statement .toMir := opField_encodeFields ..
theorem fromMir : Statement .fromMir := opField_encodeFields ..
theorem enc (unit : FieldUnit) (signed : Bool) (start len : Nat) : Statement (.enc unit signed start len) :=
  opField_encodeFields ..
theorem dec (unit : FieldUnit) (tw : TargetWidth) (start len : Nat) : Statement (.dec unit tw start len) :=
  opField_encodeFields ..
theorem encb (nb : Nat) : Statement (.encb nb) := opField_encodeFields ..
theorem decb (nb : Nat) : Statement (.decb nb) := opField_encodeFields ..
theorem qenc (unit : FieldUnit) (start len : Nat) : Statement (.qenc unit start len) := opField_encodeFields ..
theorem qdec (unit : FieldUnit) (start len : Nat) : Statement (.qdec unit start len) := opField_encodeFields ..
theorem qencb (nb : Nat) : Statement (.qencb nb) := opField_encodeFields ..
theorem qdecb (nb : Nat) : Statement (.qdecb nb) := opField_encodeFields ..
theorem getErr : Statement .getErr := opField_encodeFields ..
theorem setErr : Statement .setErr := opField_encodeFields ..
theorem hdr : Statement .hdr := opField_encodeFields ..

end Sys2Proof.Laws.OpcodeBits
end

