-- ==== Sys2Proof/Laws/Quantizer.lean ====
section
/-! SUPPORT. What the quantizer's rescale and the binary64 rounding do, said once: the rescale is the nearest step, rounded half
up; the rounding of a number to an integer is nearest, ties to even; and the binade of a positive rational bounds it. -/

namespace Sys2Proof.Machine

/-! ### The rescale -/

/-- On an interval of positive length the rescale is the floor of R153, with no truncation at 0. -/
theorem rescale_eq_floor {v lo hi : ℚ} (steps : Nat) (hlo : lo ≤ v) (h : lo < hi) :
    (rescale v lo hi steps : ℤ) = ⌊(v - lo) * steps / (hi - lo) + 1 / 2⌋ := by
  rw [rescale, if_neg (ne_of_gt h), Int.toNat_of_nonneg]
  apply Int.floor_nonneg.2
  have h1 : 0 ≤ v - lo := sub_nonneg.2 hlo
  have h2 : 0 < hi - lo := sub_pos.2 h
  positivity

theorem rescale_of_eq {v lo hi : ℚ} (steps : Nat) (h : hi = lo) : rescale v lo hi steps = 0 := if_pos h

/-- The rescale is the exact position within half a step. -/
theorem rescale_error {v lo hi : ℚ} (steps : Nat) (hlo : lo ≤ v) (h : lo < hi) :
    |(rescale v lo hi steps : ℚ) - (v - lo) * steps / (hi - lo)| ≤ 1 / 2 := by
  have e : ((rescale v lo hi steps : ℤ) : ℚ) = (rescale v lo hi steps : ℚ) := by norm_cast
  rw [← e, rescale_eq_floor steps hlo h, abs_le]
  have h1 := Int.floor_le ((v - lo) * steps / (hi - lo) + 1 / 2)
  have h2 := Int.lt_floor_add_one ((v - lo) * steps / (hi - lo) + 1 / 2)
  constructor <;> linarith

/-- The rescale stays in its codomain. -/
theorem rescale_le {v lo hi : ℚ} (steps : Nat) (hlo : lo ≤ v) (hhi : v ≤ hi) : rescale v lo hi steps ≤ steps := by
  by_cases h : hi = lo
  · rw [rescale_of_eq steps h]; exact Nat.zero_le _
  · have hl : lo < hi := lt_of_le_of_ne (hlo.trans hhi) (Ne.symm h)
    have hd : 0 < hi - lo := sub_pos.2 hl
    have hb : (v - lo) * steps / (hi - lo) ≤ steps := by
      rw [div_le_iff₀ hd, mul_comm]
      exact mul_le_mul_of_nonneg_left (by linarith) (Nat.cast_nonneg _)
    have hz : (rescale v lo hi steps : ℤ) < (steps : ℤ) + 1 := by
      rw [rescale_eq_floor steps hlo hl, Int.floor_lt]
      push_cast
      linarith
    omega

/-- The rescale is 0 at the lower bound. -/
theorem rescale_lo (lo hi : ℚ) (steps : Nat) : rescale lo lo hi steps = 0 := by
  unfold rescale
  split
  · rfl
  · simp; norm_num

/-- A decoded step is the exact rational at that step: the rescale followed by the decode is within half a step. -/
theorem unscale_error {v lo hi : ℚ} (steps : Nat) (hs : 1 ≤ steps) (hlo : lo ≤ v) (h : lo < hi) :
    |lo + (rescale v lo hi steps : ℚ) * (hi - lo) / steps - v| ≤ (hi - lo) / (2 * steps) := by
  have hd : 0 < hi - lo := sub_pos.2 h
  have hs' : (0 : ℚ) < steps := by exact_mod_cast hs
  have e : lo + (rescale v lo hi steps : ℚ) * (hi - lo) / steps - v
      = ((rescale v lo hi steps : ℚ) - (v - lo) * steps / (hi - lo)) * ((hi - lo) / steps) := by
    field_simp
    ring
  have hb : (hi - lo) / (2 * steps) = 1 / 2 * ((hi - lo) / steps) := by field_simp
  rw [e, abs_mul, abs_of_pos (div_pos hd hs'), hb]
  exact mul_le_mul_of_nonneg_right (rescale_error steps hlo h) (div_pos hd hs').le

theorem dBit_cast (l : Nat) : (dBit l : ℚ) = 2 ^ l - 1 := by
  rw [dBit, Nat.cast_sub Nat.one_le_two_pow]
  norm_num

theorem dByte_cast {nb : Nat} (h : 1 ≤ nb) : (dByte nb : ℚ) = 2 ^ (8 * nb) - 3 := by
  have h8 : 2 ^ 8 ≤ 2 ^ (8 * nb) := Nat.pow_le_pow_right (by norm_num) (by omega)
  rw [dByte, Nat.cast_sub (by omega)]
  norm_num

/-- The bit-range code fits its field (R155). -/
theorem qMapBit_lt {v lo hi : ℚ} (l : Nat) (hlo : lo ≤ v) (hhi : v ≤ hi) : qMapBit v lo hi l < 2 ^ l := by
  have hp : 0 < 2 ^ l := by positivity
  unfold qMapBit
  split
  · exact hp
  · have := rescale_le (dBit l) hlo hhi
    unfold dBit at this ⊢
    omega

/-! ### The legacy codec reads what it wrote -/

theorem memRead_congr {p p' : Payload} {a n : Nat} (h : ∀ k, k < n → payloadByte p (a + k) = payloadByte p' (a + k)) :
    memRead p a n = memRead p' a n := by
  induction n with
  | zero => rfl
  | succ n ih => rw [memRead, memRead, ih fun k hk => h k (by omega), h n (by omega)]

/-- A byte of a payload after a legacy write. -/
theorem payloadByte_memWrite (p : Payload) (a n v i : Nat) (hi : i < 8) :
    payloadByte (memWrite p a n v) i = if a ≤ i ∧ i < a + n then byteOf v (i - a) else payloadByte p i := by
  have := memWrite_get p a n v ⟨i, hi⟩
  rw [← payloadByte_eq, ← payloadByte_eq] at this
  exact this

/-- A legacy read of what a legacy write stored gives the value's low bytes. -/
theorem memRead_memWrite (p : Payload) (a n v : Nat) (h : a + n ≤ 8) :
    memRead (memWrite p a n v) a n = v % 2 ^ (8 * n) := by
  have hg : ∀ m, m ≤ n → memRead (memWrite p a n v) a m = v % 2 ^ (8 * m) := by
    intro m
    induction m with
    | zero => intro; simp [memRead, Nat.mod_one]
    | succ m ih =>
      intro hm
      rw [memRead, ih (by omega), payloadByte_memWrite p a n v (a + m) (by omega), if_pos (by omega),
        Nat.add_sub_cancel_left, byteOf_toNat, Nat.shiftLeft_eq, show 8 * (m + 1) = 8 * m + 8 by ring, pow_add,
        Nat.mod_mul, mul_comm (2 ^ (8 * m))]
  exact hg n le_rfl

/-! ### Rounding -/

/-- The rounded integer is a nearest one. -/
theorem roundHalfEven_error (x : ℚ) : |(roundHalfEven x : ℚ) - x| ≤ 1 / 2 := by
  have h1 := Int.floor_le x
  have h2 := Int.lt_floor_add_one x
  unfold roundHalfEven
  split_ifs <;> push_cast <;> rw [abs_le] <;> constructor <;> linarith

/-- On a tie the rounded integer is even. -/
theorem roundHalfEven_even_of_tie {x : ℚ} (h : x - ⌊x⌋ = 1 / 2) : roundHalfEven x % 2 = 0 := by
  unfold roundHalfEven
  rw [h, if_neg (lt_irrefl _), if_neg (lt_irrefl _)]
  split <;> omega

/-- An integer rounds to itself. -/
theorem roundHalfEven_intCast (n : ℤ) : roundHalfEven (n : ℚ) = n := by
  unfold roundHalfEven
  rw [Int.floor_intCast, sub_self, if_pos (by norm_num)]

/-- A positive rational lies below the top of its binade, and, above the subnormals, at or above its bottom. -/
theorem binade_bounds {a : ℚ} (h : 0 < a) :
    a < (2 : ℚ) ^ (binade a + 1) ∧ (-1022 < binade a → (2 : ℚ) ^ binade a ≤ a) ∧ -1022 ≤ binade a := by
  refine ⟨?_, ?_, le_max_right _ _⟩
  · have h1 := Int.lt_zpow_succ_log_self (b := 2) (by norm_num) a
    refine lt_of_lt_of_le (by exact_mod_cast h1) ?_
    apply zpow_le_zpow_right₀ (by norm_num)
    unfold binade
    have := le_max_left (Int.log 2 a) (-1022)
    omega
  · intro hb
    have e : binade a = Int.log 2 a := by unfold binade at *; omega
    rw [e]
    exact_mod_cast Int.zpow_log_le_self (b := 2) (by norm_num) h

end Sys2Proof.Machine
end

