-- ==== Sys2Proof/Tests/Slice0.lean ====
section
/-! SUPPORT. The model's own tests: expected results from the vectors of spec/95_test_vectors.md and the worked examples of the
rules, and for each statement with hypotheses a state and operands that meet them together. -/

namespace Sys2Proof.Tests

open Sys2Proof.Machine

/-- The test configuration of 95_test_vectors.md section 0. -/
def testParams : Config.Params where
  messageKindOf := fun id =>
    if id = 0x100 then .currentSensor else if id = 0x200 then .marineSensor else .defaultKind
  marineErrByte := 3
  diagActive := true

/-- A zeroed frame with the given mirror and OPA. -/
def mirrorState (mirror opa : Word64) : State := { State.reset with mirror := mirror, opa := opa }

/-- The bounds 0.0 and 1.0 with the value QV (95_test_vectors.md 2.5). -/
def unitState (qv : Word64) : State := { State.reset with qv := qv, qmax := 0x3FF0000000000000 }

/-- What a command leaves, for the commands that always answer a next state. -/
def after (o : Host.Outcome State Fault Refusal) : State :=
  match o with
  | .next t => t
  | .fault _ => State.reset
  | .refused _ => State.reset

/-- The next state of an outcome, if it is one. -/
def nextOf (o : Host.Outcome State Fault Refusal) : Option State :=
  match o with
  | .next t => some t
  | .fault _ => none
  | .refused _ => none

/-- The refusal of an outcome, if it is one. -/
def refusalOf (o : Host.Outcome State Fault Refusal) : Option Refusal :=
  match o with
  | .next _ => none
  | .fault _ => none
  | .refused r => some r

/-! ### WellFormed refuses what no word holds -/

theorem test_enc_start_too_wide : (Instr.enc .bits false 128 0).wf = false := by decide
theorem test_dec_len_too_wide : (Instr.dec .bits .w8 0 128).wf = false := by decide
theorem test_encb_count_too_wide : (Instr.encb 8).wf = false := by decide
theorem test_decb_count_too_wide : (Instr.decb 8).wf = false := by decide
theorem test_qenc_start_too_wide : (Instr.qenc .bytes 128 1).wf = false := by decide
theorem test_qdec_len_too_wide : (Instr.qdec .bytes 1 128).wf = false := by decide
theorem test_qencb_count_too_wide : (Instr.qencb 8).wf = false := by decide
theorem test_qdecb_count_too_wide : (Instr.qdecb 9).wf = false := by decide
theorem test_greatest_fields_fit : (Instr.enc .bytes true 127 127).wf = true ∧ (Instr.qdecb 7).wf = true := by decide

/-! ### Decoding: words written out from the format of R70 and the map of R75 -/

theorem test_decode_new : decode 0b000000_000_0000000_0000000_00_0_0_00001#32 = .instr .new := by decide
/-- E6. -/
theorem test_decode_new_ignores : decode 0b000000_111_1111111_1111111_11_1_1_00001#32 = .instr .new := by decide
theorem test_decode_load : decode 0b000000_000_0000000_0000000_00_0_0_00010#32 = .instr .load := by decide
theorem test_decode_toMir : decode 0b000000_000_0000000_0000000_00_0_0_00011#32 = .instr .toMir := by decide
theorem test_decode_fromMir : decode 0b000000_000_0000000_0000000_00_0_0_00100#32 = .instr .fromMir := by decide
/-- E7. -/
theorem test_decode_enc_bytes :
    decode 0b000000_000_0000001_0000111_00_0_1_00101#32 = .instr (.enc .bytes false 7 1) := by decide
/-- E10. -/
theorem test_decode_enc_signed :
    decode 0b000000_000_0000100_0111100_00_1_0_00101#32 = .instr (.enc .bits true 60 4) := by decide
/-- E8. -/
theorem test_decode_dec_w8 :
    decode 0b000000_000_0001001_0001000_00_0_0_00110#32 = .instr (.dec .bits .w8 8 9) := by decide
/-- E11. -/
theorem test_decode_dec_w64 :
    decode 0b000000_000_1000000_0000000_11_0_0_00110#32 = .instr (.dec .bits .w64 0 64) := by decide
/-- E9. -/
theorem test_decode_encb : decode 0b000000_010_0000000_0000000_00_0_0_00111#32 = .instr (.encb 2) := by decide
theorem test_decode_decb : decode 0b000000_011_0000000_0000000_00_0_0_01000#32 = .instr (.decb 3) := by decide
theorem test_decode_qenc :
    decode 0b000000_000_0001100_0010000_00_0_0_01001#32 = .instr (.qenc .bits 16 12) := by decide
theorem test_decode_qdec :
    decode 0b000000_000_0001000_0000000_00_0_1_01010#32 = .instr (.qdec .bytes 0 8) := by decide
theorem test_decode_qencb : decode 0b000000_001_0000000_0000000_00_0_0_01011#32 = .instr (.qencb 1) := by decide
theorem test_decode_qdecb : decode 0b000000_001_0000000_0000000_00_0_0_01100#32 = .instr (.qdecb 1) := by decide
theorem test_decode_getErr : decode 0b000000_000_0000000_0000000_00_0_0_01101#32 = .instr .getErr := by decide
theorem test_decode_setErr : decode 0b000000_000_0000000_0000000_00_0_0_01110#32 = .instr .setErr := by decide
theorem test_decode_hdr : decode 0b000000_000_0000000_0000000_00_0_0_01111#32 = .instr .hdr := by decide
/-- E1 to E5. -/
theorem test_decode_illegal :
    decode 0x00000000#32 = .illegal .opcodeUnassigned ∧ decode 0x00000010#32 = .illegal .opcodeUnassigned
    ∧ decode 0x0000001F#32 = .illegal .opcodeUnassigned ∧ decode 0x04000005#32 = .illegal .reservedBitsSet
    ∧ decode 0x80000001#32 = .illegal .reservedBitsSet := by decide

/-! ### One command each -/

/-- F1. -/
theorem test_new :
    nextOf (exec .new { State.reset with mirror := 0xFFFF, wcur := 3, rcur := 5, opid := 0x100, opext := 1, result := 9 })
      = some { State.reset with id := 0x100, ext := 1, opid := 0x100, opext := 1, result := 9 } := by decide

/-- F2. -/
theorem test_load :
    loadWith 0xDEADBEEFDEADBEEF { State.reset with pin := #v[1, 2, 3, 4, 5, 6, 7, 8], wcur := 2 }
      = { State.reset with
          pin := #v[1, 2, 3, 4, 5, 6, 7, 8], payload := #v[1, 2, 3, 4, 5, 6, 7, 8], mirror := 0xDEADBEEFDEADBEEF } := by
  decide

/-- F5. -/
theorem test_toMir :
    (after (exec .toMir { State.reset with payload := #v[0x2C, 1, 0, 0, 0, 0, 0, 0] })).mirror = 0x2C01000000000000 := by
  decide

/-- F4. -/
theorem test_toMir_zero : (after (exec .toMir State.reset)).status = 0x00000003 := by decide

/-- F6. -/
theorem test_fromMir :
    (after (exec .fromMir (mirrorState 0x1122334455667788 0))).payload
      = #v[0x11, 0x22, 0x33, 0x44, 0x55, 0x66, 0x77, 0x88] := by decide

/-- B15: the merge, both warnings, and the events in order. -/
theorem test_enc_warnings :
    encWith testParams .bits true 4 4 (mirrorState 0xF0 0xFF)
      = { mirrorState 0xFF0 0xFF with status := 0x00030000, diag := [.signed, .overlap] } := by decide

/-- B8: an operand wider than the field spills. -/
theorem test_enc_spill :
    encWith testParams .bits false 0 4 (mirrorState 0 0x1F) = mirrorState 0x1F 0x1F := by decide

/-- B26: the zero test is before the cast. -/
theorem test_dec_zero_before_cast :
    nextOf (exec (.dec .bits .w8 0 9) { mirrorState 0x100 0 with result := 7 }) = some (mirrorState 0x100 0) := by decide

/-- B25. -/
theorem test_dec_truncates :
    (after (exec (.dec .bits .w8 8 9) (mirrorState 0x0123456789ABCDEF 0))).result = 0xCD := by decide

/-- L6, its second command. -/
theorem test_encb :
    nextOf (exec (.encb 2) { State.reset with payload := #v[0xCC, 0xBB, 0xAA, 0, 0, 0, 0, 0], wcur := 5, opa := 0xDDEE })
      = some { State.reset with
          payload := #v[0xCC, 0xBB, 0xAA, 0, 0, 0xEE, 0xDD, 0], wcur := 7, opa := 0xDDEE } := by decide

/-- L4. -/
theorem test_encb_past_byte_six :
    nextOf (exec (.encb 1) { State.reset with wcur := 7, opa := 0xFF })
      = some { State.reset with wcur := 7, opa := 0xFF, status := 0x00000001 } := by decide

/-- L13, its second command. -/
theorem test_decb :
    (after (exec (.decb 3) { State.reset with payload := #v[0xCD, 0xAB, 0x34, 0x12, 0, 0, 0, 0], rcur := 1 })).result
      = 0x1234AB := by decide

/-- L11: the cursor advances on AMBZERO. -/
theorem test_decb_zero :
    nextOf (exec (.decb 4) { State.reset with rcur := 3 })
      = some { State.reset with rcur := 7, status := 0x00000003 } := by decide

/-- Q1. -/
theorem test_qenc :
    qencWith testParams .bits 0 8 (unitState 0x3FE0000000000000)
      = { unitState 0x3FE0000000000000 with mirror := 0x80 } := by decide +kernel

/-- Q5: 1.5 is above the interval. -/
theorem test_qenc_domain :
    (qencWith testParams .bits 0 8 (unitState 0x3FF8000000000000)).status = 0x00000002 := by decide +kernel

/-- Q2. -/
theorem test_qdec :
    (after (exec (.qdec .bits 0 8) { unitState 0 with mirror := 0x80 })).qresult = 0x3FE0101010101010 := by
  decide +kernel

/-- Q6: 1/3 is rounded to nearest. -/
theorem test_qdec_third :
    (after (exec (.qdec .bits 0 2) { unitState 0 with mirror := 0x1 })).qresult = 0x3FD5555555555555 := by
  decide +kernel

/-- The example of R158. -/
theorem test_qencb :
    nextOf (exec (.qencb 1) (unitState 0x3FE0000000000000))
      = some { unitState 0x3FE0000000000000 with payload := #v[0x80, 0, 0, 0, 0, 0, 0, 0], wcur := 1 } := by
  decide +kernel

/-- A code of 1 decodes to exactly the lower bound (R159), here QMIN = 1.0. -/
theorem test_qdecb :
    nextOf (exec (.qdecb 1) { State.reset with
        payload := #v[1, 0, 0, 0, 0, 0, 0, 0], qmin := 0x3FF0000000000000, qmax := 0x4000000000000000 })
      = some { State.reset with
        payload := #v[1, 0, 0, 0, 0, 0, 0, 0], qmin := 0x3FF0000000000000, qmax := 0x4000000000000000
        rcur := 1, qresult := 0x3FF0000000000000 } := by decide +kernel

/-- The example of R183. -/
theorem test_getErr :
    (getErrWith testParams { mirrorState 0xB700000000000000 0 with id := 0x100 }).result = 7 := by decide

/-- P3, step 3: the marine field is mirror bits 39..32. -/
theorem test_getErr_marine :
    (getErrWith testParams { mirrorState 0x1234000780000000 0 with id := 0x200 }).result = 7 := by decide

/-- The example of R184: the code 9 is clamped to 7 and the header bits survive. -/
theorem test_setErr_clamp :
    setErrWith testParams { mirrorState 0xB000000000000000 9 with id := 0x100 }
      = { mirrorState 0xB700000000000000 9 with id := 0x100, result := 7, status := 0x00000100 } := by decide

/-- W5: a default frame that holds 3 refuses 5. -/
theorem test_setErr_set_once :
    setErrWith testParams { mirrorState 0x03 5 with id := 0x321 }
      = { mirrorState 0x03 5 with id := 0x321, result := 3 } := by decide

/-- The example of R201. -/
theorem test_hdr :
    hdrWith testParams { mirrorState 0 5 with opb := 2 } = { mirrorState 0xB000000000000000 5 with opb := 2 } := by decide

/-- R201, corner cases: a rolling number of 4 reaches the identifier field. -/
theorem test_hdr_spill : (hdrWith testParams { mirrorState 0 0 with opb := 4 }).mirror = 0x2000000000000000 := by decide

/-! ### The host and the step -/

/-- A command placed by withFetchWord is the next one to run, as the first after reset. -/
theorem test_step_first_command :
    nextOf (step (State.reset.withFetchWord 32 0x00000003)) = some { State.reset with status := 0x00000003 } := by decide

/-- P4, step 2: a word with RSV set writes STATUS alone. -/
theorem test_step_illegal :
    nextOf (step ({ State.reset with opa := 1 }.withFetchWord 32 0x04000005))
      = some { State.reset with opa := 1, status := 0x00000004 } := by decide

/-- R57: a write at a width the register does not have is refused. -/
theorem test_step_wrong_width :
    refusalOf (step { State.reset with inputs := [.write 0x20 32 1] }) = some (.undefinedAccess 0x20 32) := by decide

/-- R56, P4 step 13: the host reads STATUS. -/
theorem test_step_read_status :
    nextOf (step { State.reset with status := 0x00000003, inputs := [.read 0x08 32] })
      = some { State.reset with status := 0x00000003, readData := [3] } := by decide

/-- R81: NEWI's actions, from the spec's expansion, with EXT given and left out (default 0). -/
theorem test_newI_expansion :
    lineActions (.newI 0x100 (some 1))
      = some [.write 0x48 32 0x100, .write 0x50 32 1, .write 0x00 32 0x00000001]
    ∧ lineActions (.newI 0x100 none)
      = some [.write 0x48 32 0x100, .write 0x50 32 0, .write 0x00 32 0x00000001] := by decide

/-- R81: ENCBYTE 0 is ENC.B 7, 1. -/
theorem test_encByte_expansion : lineActions (.encByte 0) = some [.write 0x00 32 0x00010E25] := by decide

/-! ### Witnesses: each theorem meets the hypotheses of the statement it names, together; a clause with a bound has one at
the boundary -/

theorem test_witness_EncodingFormula :
    (31 < 32 ∧ 1 < 2 ∧ 3 < 4 ∧ 127 < 128 ∧ 7 < 8) := by decide

theorem test_witness_DecodeOfEncode :
    (Instr.dec .bytes .w32 127 127).wf = true ∧ (Instr.encb 7).wf = true ∧ Instr.hdr.wf = true := by decide

theorem test_witness_DecodedWordReencodes :
    decode 0x03FFFFE7#32 = .instr (.encb 7) ∧ encode (.encb 7) = 0x03FFFFE7#32 &&& Claim.wordBitsRead (.encb 7) := by
  decide

theorem test_witness_IgnoredFields :
    decode 0x03FFFFE7#32 = .instr (.encb 7)
    ∧ 0x03FFFFE7#32 &&& Claim.wordBitsRead (.encb 7) = 0x03800007#32 &&& Claim.wordBitsRead (.encb 7)
    ∧ (0x03FFFFE7#32 : Word32) ≠ 0x03800007#32 := by decide

theorem test_witness_SelectingMask :
    decode 0x03FFFFEF#32 = .instr .hdr ∧ 0x03FFFFEF#32 &&& 0xFC00001F#32 = BitVec.ofNat 32 15
    ∧ 0x00000001#32 &&& 0xFC00001F#32 = BitVec.ofNat 32 1 := by decide

/-- The boundaries of the illegal words: OP 0, 15, 16, and RSV at its lowest bit. -/
theorem test_witness_IllegalWord :
    Claim.illegalWord 0x00000000#32 ∧ Claim.illegalWord 0x00000010#32 ∧ Claim.illegalWord 0x04000005#32
    ∧ ¬ Claim.illegalWord 0x0000000F#32 ∧ ¬ Claim.illegalWord 0x03FFFFE1#32
    ∧ (State.reset.withFetchWord 32 0x04000005).inputs = .write 0x00 32 0x04000005 :: [] := by
  unfold Claim.illegalWord; decide

theorem test_witness_StepRuns :
    decodeTableWord 32 0x00000003 = some .toMir
    ∧ (State.reset.withFetchWord 32 0x00000003).inputs = .write 0x00 32 0x00000003 :: []
    ∧ decode (BitVec.setWidth 32 (0x00000003#64 : Word64)) = .instr .toMir := by decide

theorem test_witness_EveryStepKeepsStatusLegal :
    StatusLegal State.reset = true ∧ nextOf (step (State.reset.withFetchWord 32 0x00000010))
      = some { State.reset with status := 0x00000004 } := by decide

theorem test_witness_DefinedHostActions :
    let s := { State.reset with inputs := [.write 0x20 64 5, .reset, .read 0x90 32, .write 0x00 32 0] }
    StatusLegal s = true ∧ s.inputs.all definedAction = true ∧ State.reset.inputs = [] := by decide

theorem test_witness_ResetInput :
    { State.reset with opa := 7, inputs := [.reset] }.inputs = .reset :: [] := by decide

/-- Both clauses of the host map at its edges: KIND's slot at 32 bits is in it, the offset after it is not; PIN[7] is in it,
the offset between PIN and ID's slot at the wrong width is not. -/
theorem test_witness_HostMap :
    (0x90, 32) ∈ Claim.hostMap ∧ (0x91, 32) ∉ Claim.hostMap ∧ (0x5F, 8) ∈ Claim.hostMap ∧ (0x60, 8) ∉ Claim.hostMap := by
  decide

theorem test_witness_HostRead :
    (0x10, 64, 7) ∈ Claim.hostView Config.platform { State.reset with result := 7 } := by
  simp [Claim.hostView]

theorem test_witness_HostWrite : (0x77, 8) ∈ Claim.readOnlyMap ∧ (0x08, 32) ∈ Claim.readOnlyMap := by decide

theorem test_witness_NewIsSynchronised : ∃ t, exec .new State.reset = .next t := ⟨_, rfl⟩

theorem test_witness_LoadOfZeros : ∀ i : Fin 8, State.reset.pin[i] = 0 := by decide

theorem test_witness_LegacyBytesReversed :
    State.reset.wcur.toNat + 7 ≤ 7 ∧ { State.reset with wcur := 7 }.wcur.toNat + 0 ≤ 7 ∧ 6 < 7 := by decide

/-- ENC, DEC, QENC, QDEC: a range that ends at bit 64 and one that ends at bit 65; the byte unit at 7 + 1. -/
theorem test_witness_bit_range_bounds :
    Claim.bitCount .bits 60 + Claim.bitCount .bits 4 ≤ 64 ∧ 64 < Claim.bitCount .bits 60 + Claim.bitCount .bits 5
    ∧ Claim.bitCount .bytes 7 + Claim.bitCount .bytes 1 ≤ 64 ∧ 64 < Claim.bitCount .bytes 7 + Claim.bitCount .bytes 2
    ∧ Claim.bitCount .bits 64 + Claim.bitCount .bits 0 ≤ 64 := by decide

theorem test_witness_EncThenDec :
    let s := mirrorState 0x0FFFFFFFFFFFFFFF 0xF
    Claim.bitCount .bits 60 + Claim.bitCount .bits 4 ≤ 64
    ∧ Claim.field s.mirror (Claim.bitCount .bits 60) (Claim.bitCount .bits 4) = 0
    ∧ s.opa.toNat < 2 ^ Claim.bitCount .bits 4 ∧ s.opa.toNat < 2 ^ targetBits .w8 := by decide

/-- ENCB and DECB: an access that ends at byte 6 and one that ends at byte 7. -/
theorem test_witness_legacy_bounds :
    let s := { State.reset with wcur := 5, rcur := 5 }
    s.wcur.toNat + 2 ≤ 7 ∧ 7 < s.wcur.toNat + 3 ∧ s.rcur.toNat + 2 ≤ 7 ∧ 7 < s.rcur.toNat + 3 := by decide

theorem test_witness_EncbThenDecb :
    let s := { State.reset with wcur := 3, rcur := 3, opa := 0x12345678 }
    s.wcur.toNat + 4 ≤ 7 ∧ s.rcur = s.wcur := by decide

/-- The nearest pattern: a rational below the overflow threshold, the threshold itself and its negation, and a finite pattern. -/
theorem test_witness_Rounding :
    |(1 / 3 : ℚ)| < 2 ^ 1024 - 2 ^ 970 ∧ ((2 : ℚ) ^ 1024 - 2 ^ 970 ≤ 2 ^ 1024 - 2 ^ 970)
    ∧ (-(2 ^ 1024 - 2 ^ 970) ≤ -((2 : ℚ) ^ 1024 - 2 ^ 970)) ∧ finite 0x3FD5555555555555#64 = true := by decide +kernel

/-- A tie: 1 + 2^-53 is half way between two patterns, and the even one is given. -/
theorem test_witness_Rounding_tie :
    round64 (1 + 1 / 2 ^ 53) = 0x3FF0000000000000#64
    ∧ |val 0x3FF0000000000001#64 - (1 + 1 / 2 ^ 53)| = |val (round64 (1 + 1 / 2 ^ 53)) - (1 + 1 / 2 ^ 53)|
    ∧ val 0x3FF0000000000001#64 ≠ val (round64 (1 + 1 / 2 ^ 53)) := by decide +kernel

theorem test_witness_RoundingKeeps :
    finite 0x0000000000000001#64 = true ∧ val 0x0000000000000001#64 ≠ 0 := by decide +kernel

theorem test_witness_maps : (0 : ℚ) ≤ 1 / 2 ∧ (1 / 2 : ℚ) ≤ 3 / 4 ∧ (3 / 4 : ℚ) ≤ 1 ∧ (0 : ℚ) < 1 := by decide +kernel

/-- QENC, QENCB: a value in its interval, at both of its ends, and one outside it. -/
theorem test_witness_InDomain :
    Claim.InDomain (unitState 0x3FE0000000000000) ∧ Claim.InDomain (unitState 0)
    ∧ Claim.InDomain (unitState 0x3FF0000000000000) ∧ ¬ Claim.InDomain (unitState 0x3FF8000000000000)
    ∧ ¬ Claim.InDomain (unitState 0x7FF8000000000000) := by
  unfold Claim.InDomain; decide +kernel

/-- QENCB: NB = 0 in the interval, and both sides of the cursor bound. -/
theorem test_witness_QencbBounds :
    Claim.InDomain { unitState 0x3FE0000000000000 with wcur := 6 }
    ∧ { unitState 0x3FE0000000000000 with wcur := 6 }.wcur.toNat + 1 ≤ 7
    ∧ 7 < { unitState 0x3FE0000000000000 with wcur := 6 }.wcur.toNat + 2 := by
  unfold Claim.InDomain; decide +kernel

/-- QDEC: a zero field, and a non-zero field with a bound that is not finite and with two that are. -/
theorem test_witness_QdecClauses :
    Claim.field (mirrorState 0x100 0).mirror 0 8 = 0 ∧ Claim.field (mirrorState 0x80 0).mirror 0 8 ≠ 0
    ∧ ¬ (finite { mirrorState 0x80 0 with qmax := 0x7FF0000000000000 }.qmin = true
      ∧ finite { mirrorState 0x80 0 with qmax := 0x7FF0000000000000 }.qmax = true)
    ∧ finite (unitState 0).qmin = true ∧ finite (unitState 0).qmax = true := by decide

/-- QDECB: the bytes read zero, and non-zero. -/
theorem test_witness_QdecbClauses :
    let s := { unitState 0 with payload := #v[0, 0x80, 0, 0, 0, 0, 0, 0], rcur := 1 }
    s.rcur.toNat + 6 ≤ 7 ∧ 7 < s.rcur.toNat + 7
    ∧ (s.payload.getD (s.rcur.toNat + 0) 0).toNat * 2 ^ (8 * 0) ≠ 0
    ∧ (State.reset.payload.getD (State.reset.rcur.toNat + 0) 0).toNat * 2 ^ (8 * 0) = 0 := by decide

/-- QENC then QDEC: a value that stores a code other than 0, and the lower bound. -/
theorem test_witness_QencThenQdec :
    let s := unitState 0x3FE0000000000000
    Claim.bitCount .bits 56 + Claim.bitCount .bits 8 ≤ 64 ∧ 1 ≤ 8 ∧ Claim.InDomain s ∧ val s.qmin < val s.qmax
    ∧ Claim.field s.mirror (Claim.bitCount .bits 56) (Claim.bitCount .bits 8) = 0
    ∧ (unitState 0).qv = (unitState 0).qmin := by
  unfold Claim.InDomain; decide +kernel

theorem test_witness_QencbThenQdecb :
    let s := { unitState 0x3FE0000000000000 with wcur := 6, rcur := 6 }
    1 ≠ 0 ∧ s.wcur.toNat + 1 ≤ 7 ∧ s.rcur = s.wcur ∧ Claim.InDomain s ∧ val s.qmin < val s.qmax := by
  unfold Claim.InDomain; decide +kernel

/-- Set once, and the two codes of R185, under the test configuration. -/
theorem test_witness_SetOnceAndClamp :
    testParams.messageKindOf { mirrorState 0x03 5 with id := 0x321 }.id = .defaultKind
    ∧ Claim.field { mirrorState 0x03 5 with id := 0x321 }.mirror 0 8 ≠ 0
    ∧ testParams.messageKindOf { mirrorState 0 9 with id := 0x100 }.id = .currentSensor
    ∧ { mirrorState 0 9 with id := 0x100 }.opa = 9 ∧ { mirrorState 0 5 with id := 0x100 }.opa = 5 := by decide

/-- Two frames with different identifiers of one kind, which agree on nothing else but OPA's low byte and the stored code. -/
theorem test_witness_Pure :
    let s := { mirrorState 0x0700000000000003 9 with id := 0x321, wcur := 3 }
    let u := { mirrorState 0xB700000000001203 0xFF09 with id := 0x322, payload := #v[1, 2, 3, 4, 5, 6, 7, 8] }
    testParams.messageKindOf s.id = testParams.messageKindOf u.id ∧ s.opa.toNat % 256 = u.opa.toNat % 256
    ∧ Claim.field s.mirror (Claim.errorPos testParams (testParams.messageKindOf s.id))
        (Claim.errorWidth (testParams.messageKindOf s.id))
      = Claim.field u.mirror (Claim.errorPos testParams (testParams.messageKindOf s.id))
        (Claim.errorWidth (testParams.messageKindOf s.id))
    ∧ s.id ≠ u.id ∧ s.mirror ≠ u.mirror := by decide

/-- The failures of the frame statement: BOUNDS, DOMAIN after a read, AMBZERO after a read and of TOMIR. -/
theorem test_witness_Failures :
    (∃ t, exec (.qdecb 0) State.reset = .next t ∧ statusCode t.status = 1)
    ∧ (∃ t, exec (.qdecb 1) { State.reset with
        payload := #v[1, 0, 0, 0, 0, 0, 0, 0], qmax := 0x7FF0000000000000 } = .next t ∧ statusCode t.status = 2)
    ∧ (∃ t, exec (.decb 7) State.reset = .next t ∧ statusCode t.status = 3)
    ∧ (∃ t, exec .toMir State.reset = .next t ∧ statusCode t.status = 3) :=
  ⟨⟨_, rfl, by decide⟩, ⟨_, rfl, by decide⟩, ⟨_, rfl, by decide⟩, ⟨_, rfl, by decide⟩⟩

/-- The whole-machine statements: a command that constructs, one that does not, and an event-free failure. -/
theorem test_witness_whole_machine :
    (∃ t, exec .new State.reset = .next t ∧ Claim.constructs .new = true)
    ∧ (∃ t, exec (.decb 1) State.reset = .next t ∧ Claim.constructs (.decb 1) = false
      ∧ Claim.mayWriteMirror (.decb 1) = false ∧ Claim.mayWritePayload (.decb 1) = false
      ∧ statusCode t.status ≠ 0)
    ∧ (∃ t, exec .toMir State.reset = .next t ∧ Claim.mayWriteResult .toMir = false
      ∧ Claim.mayWriteQresult .toMir = false) :=
  ⟨⟨_, rfl, rfl⟩, ⟨_, rfl, rfl, rfl, rfl, by decide⟩, ⟨_, rfl, rfl, rfl⟩⟩

/-- SETERR under the test configuration clears a mirror bit of the current-sensor field: 7 is replaced by 5. -/
theorem test_witness_SetErrClears :
    Claim.replacesMirror .setErr = false ∧ (mirrorState 0x0700000000000000 5).mirror.getLsbD 57 = true
    ∧ (setErrWith testParams { mirrorState 0x0700000000000000 5 with id := 0x100 }).mirror.getLsbD 57 = false := by decide

theorem test_witness_Assembled :
    assemble ⟨.enc, [.s, .b], [127, 0]⟩ = some (.enc .bytes true 127 0) ∧ assemble ⟨.decb, [], [7]⟩ = some (.decb 7)
    ∧ assemble ⟨.dec, [.w8, .b], [6, 2]⟩ = some (.dec .bytes .w8 6 2)
    ∧ (Mnemonic.hdr, Instr.hdr) ∈ Claim.bareCommands ∧ ([Suffix.s, .b], FieldUnit.bytes, true) ∈ Claim.encSuffixes
    ∧ ([Suffix.w16, .b], FieldUnit.bytes, TargetWidth.w16) ∈ Claim.decSuffixes
    ∧ ([Suffix.b], FieldUnit.bytes) ∈ Claim.quantizerSuffixes
    ∧ 127 ≤ 127 ∧ 7 ≤ 7 ∧ 8 ≤ 8 ∧ (128 ≤ 128 ∨ 128 ≤ 0) := by decide

theorem test_witness_Pseudo : (0 : Nat) ≤ 7 ∧ (7 : Nat) ≤ 7 ∧ lineActions (.encByte 8) = none := by decide

theorem test_witness_EncByte : (mirrorState 0 0xFF).mirror = 0 ∧ (mirrorState 0 0xFF).opa.toNat < 256 := by decide

end Sys2Proof.Tests
end

section
/-! PROOFS. The binary64 rounding. A pattern is a sign and a whole number of units of its binade's last place; in those units
round64 is the rounding to an integer, and every other pattern's value is an integer too or lies below the binade. -/

namespace Sys2Proof.Machine

/-! ### A binary64 pattern as a sign, a binade and a count of units in the last place (R10, G2) -/

/-- The sign factor of a pattern. -/
def signFactor (neg : Bool) : ℚ := if neg then -1 else 1

/-- The pattern with this sign bit and these magnitude bits. -/
def signedPattern (neg : Bool) (m : Nat) : Word64 := BitVec.ofNat 64 ((if neg then 2 ^ 63 else 0) + m)

/-- The unit in the last place of the binade of index `e`: index 0 is the subnormals' and the least normal binade's. -/
def lastPlace (e : Nat) : ℚ := (2 : ℚ) ^ ((e : ℤ) - 1074)

theorem signFactor_mul_self (neg : Bool) : signFactor neg * signFactor neg = 1 := by
  cases neg <;> norm_num [signFactor]

theorem abs_signFactor (neg : Bool) : |signFactor neg| = 1 := by
  cases neg <;> norm_num [signFactor]

theorem lastPlace_pos (e : Nat) : 0 < lastPlace e := by
  unfold lastPlace
  positivity

theorem lastPlace_add (e n : Nat) : lastPlace (e + n) = 2 ^ n * lastPlace e := by
  rw [lastPlace, lastPlace, ← zpow_natCast, ← zpow_add₀ (by norm_num)]
  congr 1
  push_cast
  ring

theorem signedPattern_toNat (neg : Bool) {m : Nat} (h : m < 2 ^ 63) :
    (signedPattern neg m).toNat = (if neg then 2 ^ 63 else 0) + m := by
  rw [signedPattern, BitVec.toNat_ofNat]
  split <;> omega

theorem expField_eq (x : Word64) : expField x = x.toNat / 2 ^ 52 % 2 ^ 11 := by
  rw [expField, BitVec.extractLsb'_toNat, Nat.shiftRight_eq_div_pow]

theorem fracField_eq (x : Word64) : fracField x = x.toNat % 2 ^ 52 := by
  rw [fracField, BitVec.extractLsb'_toNat, Nat.shiftRight_zero]

theorem signedPattern_sign (neg : Bool) {m : Nat} (h : m < 2 ^ 63) : (signedPattern neg m).getLsbD 63 = neg := by
  rw [BitVec.getLsbD, signedPattern_toNat neg h, Nat.testBit_eq_decide_div_mod_eq]
  cases neg
  · rw [decide_eq_false_iff_not, if_neg Bool.false_ne_true]
    omega
  · rw [decide_eq_true_eq, if_pos rfl]
    omega

theorem signedPattern_bit_zero (neg : Bool) {m : Nat} (h : m < 2 ^ 63) :
    (signedPattern neg m).getLsbD 0 = decide (m % 2 = 1) := by
  rw [BitVec.getLsbD, signedPattern_toNat neg h, Nat.testBit_eq_decide_div_mod_eq,
    decide_eq_decide]
  split <;> omega

theorem expField_signedPattern (neg : Bool) {m : Nat} (h : m < 2 ^ 63) : expField (signedPattern neg m) = m / 2 ^ 52 := by
  rw [expField_eq, signedPattern_toNat neg h]
  split <;> omega

theorem fracField_signedPattern (neg : Bool) {m : Nat} (h : m < 2 ^ 63) : fracField (signedPattern neg m) = m % 2 ^ 52 := by
  rw [fracField_eq, signedPattern_toNat neg h]
  split <;> omega

theorem finite_signedPattern (neg : Bool) {m : Nat} (h : m < 0x7FF0000000000000) :
    finite (signedPattern neg m) = true := by
  rw [finite, expField_signedPattern neg (by omega), decide_eq_true_eq]
  omega

/-- Every pattern is a sign and `q` units of some binade, with the implicit bit counted in `q`. -/
theorem exists_signedPattern (x : Word64) :
    ∃ (neg : Bool) (e q : Nat), x = signedPattern neg (e * 2 ^ 52 + q) ∧ e * 2 ^ 52 + q < 2 ^ 63
      ∧ q < 2 ^ 53 ∧ (e = 0 ∨ 2 ^ 52 ≤ q) := by
  have hx := x.isLt
  refine ⟨decide (2 ^ 63 ≤ x.toNat), x.toNat % 2 ^ 63 / 2 ^ 52 - 1,
    x.toNat % 2 ^ 63 - (x.toNat % 2 ^ 63 / 2 ^ 52 - 1) * 2 ^ 52, ?_, by omega, by omega, by omega⟩
  apply BitVec.eq_of_toNat_eq
  rw [signedPattern_toNat _ (by omega)]
  simp only [decide_eq_true_eq]
  split <;> omega

/-- The value of `q` units of a binade. The count may reach the top of the binade, where the bits carry into the next one. -/
theorem val_signedPattern (neg : Bool) {e q : Nat} (hm : e * 2 ^ 52 + q < 2 ^ 63) (hq : q ≤ 2 ^ 53)
    (hn : e = 0 ∨ 2 ^ 52 ≤ q) : val (signedPattern neg (e * 2 ^ 52 + q)) = signFactor neg * (q * lastPlace e) := by
  have hs : ∀ k s i : Nat, (e * 2 ^ 52 + q) / 2 ^ 52 = k → max k 1 = i + 1 →
      (if k = 0 then (e * 2 ^ 52 + q) % 2 ^ 52 else 2 ^ 52 + (e * 2 ^ 52 + q) % 2 ^ 52) = s →
      val (signedPattern neg (e * 2 ^ 52 + q)) = signFactor neg * (s * lastPlace i) := by
    intro k s i hk hi hs
    rw [val, significand, signedPattern_sign neg hm, expField_signedPattern neg hm, fracField_signedPattern neg hm, hk, hs,
      hi, signFactor, lastPlace, mul_assoc]
    congr 3
    push_cast
    ring
  rcases lt_or_ge q (2 ^ 52) with h | h
  · obtain rfl : e = 0 := by omega
    exact hs 0 q 0 (by omega) (by omega) (by rw [if_pos rfl]; omega)
  · rcases hq.lt_or_eq with h' | rfl
    · exact hs (e + 1) q e (by omega) (by omega) (by rw [if_neg (by omega)]; omega)
    · rw [hs (e + 2) (2 ^ 52) (e + 1) (by omega) (by omega) (by rw [if_neg (by omega)]; omega), lastPlace_add]
      push_cast
      ring

/-! ### The rounding to an integer -/

theorem le_roundHalfEven {n : ℤ} {x : ℚ} (h : (n : ℚ) ≤ x) : n ≤ roundHalfEven x := by
  have he := (abs_le.1 (roundHalfEven_error x)).1
  have : (n : ℚ) - 1 < roundHalfEven x := by linarith
  have : n - 1 < roundHalfEven x := by exact_mod_cast this
  omega

theorem roundHalfEven_le {n : ℤ} {x : ℚ} (h : x ≤ n) : roundHalfEven x ≤ n := by
  have he := (abs_le.1 (roundHalfEven_error x)).2
  have : (roundHalfEven x : ℚ) < n + 1 := by linarith
  have : roundHalfEven x < n + 1 := by exact_mod_cast this
  omega

/-- Half way from the rounded integer, the rounded integer is even. -/
theorem roundHalfEven_even_of_error {x : ℚ} (h : |(roundHalfEven x : ℚ) - x| = 1 / 2) : roundHalfEven x % 2 = 0 := by
  apply roundHalfEven_even_of_tie
  rcases (abs_eq (by norm_num)).1 h with h | h
  · have hf : ⌊x⌋ = roundHalfEven x - 1 := by
      rw [Int.floor_eq_iff]
      push_cast
      constructor <;> linarith
    rw [hf]
    push_cast
    linarith
  · have hf : ⌊x⌋ = roundHalfEven x := by
      rw [Int.floor_eq_iff]
      constructor <;> linarith
    rw [hf]
    linarith

/-- No integer is nearer than the rounded one, and another as near makes the rounded one even. -/
theorem roundHalfEven_nearest (x : ℚ) (k : ℤ) :
    |(roundHalfEven x : ℚ) - x| ≤ |(k : ℚ) - x|
      ∧ (|(k : ℚ) - x| = |(roundHalfEven x : ℚ) - x| → k ≠ roundHalfEven x → roundHalfEven x % 2 = 0) := by
  rcases eq_or_ne k (roundHalfEven x) with rfl | hk
  · exact ⟨le_rfl, fun _ h => absurd rfl h⟩
  · have he := roundHalfEven_error x
    have h1 : (1 : ℚ) ≤ |(k : ℚ) - roundHalfEven x| := by
      exact_mod_cast Int.one_le_abs (sub_ne_zero.2 hk)
    have h2 := abs_sub_le (k : ℚ) x (roundHalfEven x)
    rw [abs_sub_comm x] at h2
    exact ⟨by linarith, fun ht _ => roundHalfEven_even_of_error (by linarith)⟩

/-! ### The rounding of a positive rational (G3) -/

/-- The index of a rational's binade. -/
def binadeIndex (a : ℚ) : Nat := (binade a + 1022).toNat

/-- A rational in units of its binade's last place, before it is rounded. -/
def unitCount (a : ℚ) : ℚ := a / lastPlace (binadeIndex a)

/-- The rounded number of units. -/
def roundedCount (a : ℚ) : Nat := (roundHalfEven (unitCount a)).toNat

theorem binade_eq (a : ℚ) : binade a = binadeIndex a - 1022 := by
  have : -1022 ≤ binade a := le_max_right _ _
  unfold binadeIndex
  omega

theorem unitCount_mul (a : ℚ) : unitCount a * lastPlace (binadeIndex a) = a :=
  div_mul_cancel₀ _ (lastPlace_pos _).ne'

theorem zpow_eq_lastPlace (e : Nat) : (2 : ℚ) ^ ((e : ℤ) - 1022) = 2 ^ 52 * lastPlace e := by
  rw [lastPlace, ← zpow_natCast, ← zpow_add₀ (by norm_num)]
  congr 1
  push_cast
  ring

section
variable {a : ℚ} (h : 0 < a)
include h

theorem unitCount_lt : unitCount a < 2 ^ 53 := by
  have hb := (binade_bounds h).1
  rw [binade_eq, zpow_add_one₀ (by norm_num), zpow_eq_lastPlace] at hb
  rw [unitCount, div_lt_iff₀ (lastPlace_pos _)]
  linarith

theorem unitCount_ge : binadeIndex a = 0 ∨ 2 ^ 52 ≤ unitCount a := by
  rw [or_iff_not_imp_left]
  intro hi
  have hb := (binade_bounds h).2.1
  rw [binade_eq, zpow_eq_lastPlace] at hb
  rw [unitCount, le_div_iff₀ (lastPlace_pos _)]
  exact hb (by omega)

theorem unitCount_pos : 0 < unitCount a := div_pos h (lastPlace_pos _)

theorem roundedCount_cast : (roundedCount a : ℤ) = roundHalfEven (unitCount a) :=
  Int.toNat_of_nonneg (le_roundHalfEven (by exact_mod_cast (unitCount_pos h).le))

theorem roundedCount_le : roundedCount a ≤ 2 ^ 53 := by
  have : roundHalfEven (unitCount a) ≤ (2 ^ 53 : ℤ) := roundHalfEven_le (by exact_mod_cast (unitCount_lt h).le)
  have := roundedCount_cast h
  omega

theorem roundedCount_ge : binadeIndex a = 0 ∨ 2 ^ 52 ≤ roundedCount a := by
  refine (unitCount_ge h).imp_right fun hx => ?_
  have : (2 ^ 52 : ℤ) ≤ roundHalfEven (unitCount a) := le_roundHalfEven (by exact_mod_cast hx)
  have := roundedCount_cast h
  omega

theorem roundMagnitude_eq :
    roundMagnitude a = min (binadeIndex a * 2 ^ 52 + roundedCount a) 0x7FF0000000000000 := by
  have hu : a / (2 : ℚ) ^ (binade a - 52) = unitCount a := by
    rw [unitCount, lastPlace, binade_eq]
    congr 2
    ring
  rw [roundMagnitude, hu, ← roundedCount_cast h, binade_eq]
  congr 1
  omega

end

/-! ### The overflow threshold (G3) -/

/-- The threshold is half a unit below the top of the last binade. -/
theorem threshold_eq : (2 : ℚ) ^ 1024 - 2 ^ 970 = (2 ^ 53 - 1 / 2) * lastPlace 2045 := by
  have h971 : lastPlace 2045 = 2 * 2 ^ 970 := by
    rw [lastPlace, show ((2045 : Nat) : ℤ) - 1074 = (971 : Nat) from rfl, zpow_natCast, pow_succ']
  rw [h971, show 1024 = 54 + 970 from rfl, pow_add]
  generalize (2 : ℚ) ^ 970 = t
  ring

theorem threshold_pos : (0 : ℚ) < 2 ^ 1024 - 2 ^ 970 := by
  have := lastPlace_pos 2045
  rw [threshold_eq]
  linarith

theorem lastPlace_le_lastPlace {e f : Nat} (h : e ≤ f) : lastPlace e ≤ lastPlace f :=
  zpow_le_zpow_right₀ (by norm_num) (by omega)

/-- Below the overflow threshold the magnitude bits are a finite pattern's. -/
theorem magnitude_lt_of_lt_threshold {a : ℚ} (h : 0 < a) (ht : a < 2 ^ 1024 - 2 ^ 970) :
    binadeIndex a * 2 ^ 52 + roundedCount a < 0x7FF0000000000000 := by
  have hL := lastPlace_pos 2045
  have hx := unitCount_mul a
  have hle := roundedCount_le h
  rw [threshold_eq] at ht
  rcases lt_trichotomy (binadeIndex a) 2045 with hi | hi | hi
  · omega
  · rw [hi] at hx
    have hlt : unitCount a < 2 ^ 53 - 1 / 2 := lt_of_mul_lt_mul_right (hx.trans_lt ht) hL.le
    have he := (abs_le.1 (roundHalfEven_error (unitCount a))).2
    have hq : (roundHalfEven (unitCount a) : ℚ) < 2 ^ 53 := by linarith
    have hq' : roundHalfEven (unitCount a) < (2 ^ 53 : ℤ) := by exact_mod_cast hq
    have := roundedCount_cast h
    omega
  · have hge : (2 : ℚ) ^ 52 ≤ unitCount a := (unitCount_ge h).resolve_left (by omega)
    have hm := lastPlace_le_lastPlace (show 2045 + 1 ≤ binadeIndex a by omega)
    rw [lastPlace_add] at hm
    have := mul_le_mul hge hm (by positivity) (by positivity)
    linarith

/-- From the overflow threshold on the magnitude bits reach the infinity's. -/
theorem le_magnitude_of_threshold_le {a : ℚ} (ht : 2 ^ 1024 - 2 ^ 970 ≤ a) :
    0x7FF0000000000000 ≤ binadeIndex a * 2 ^ 52 + roundedCount a := by
  have hL := lastPlace_pos 2045
  have hx := unitCount_mul a
  have h : 0 < a := threshold_pos.trans_le ht
  rw [threshold_eq] at ht
  rcases lt_trichotomy (binadeIndex a) 2045 with hi | hi | hi
  · have hm := lastPlace_le_lastPlace (show binadeIndex a + 1 ≤ 2045 by omega)
    rw [lastPlace_add] at hm
    have := mul_lt_mul_of_pos_right (unitCount_lt h) (lastPlace_pos (binadeIndex a))
    linarith
  · rw [hi] at hx
    have hge : (2 : ℚ) ^ 53 - 1 / 2 ≤ unitCount a := le_of_mul_le_mul_right (ht.trans_eq hx.symm) hL
    have hlt := unitCount_lt h
    have hq : ((2 ^ 53 - 1 : ℤ) : ℚ) ≤ unitCount a := by push_cast; linarith
    have hq1 : (2 ^ 53 - 1 : ℤ) ≤ roundHalfEven (unitCount a) := le_roundHalfEven hq
    have hne : roundHalfEven (unitCount a) ≠ 2 ^ 53 - 1 := by
      intro e
      have he := roundHalfEven_error (unitCount a)
      have hev : roundHalfEven (unitCount a) % 2 = 0 := by
        apply roundHalfEven_even_of_error
        refine le_antisymm he ?_
        rw [e, abs_sub_comm]
        refine le_trans ?_ (le_abs_self _)
        push_cast
        linarith
      omega
    have := roundedCount_cast h
    omega
  · have := roundedCount_ge h
    omega

/-! ### Patterns near a rational -/

/-- In units of the last place of a binade, and with either sign, every pattern's value is a whole number of units or lies
below the binade. -/
theorem val_units (neg : Bool) (e : Nat) (y : Word64) :
    ∃ w : ℚ, val y = signFactor neg * (w * lastPlace e) ∧ ((∃ k : ℤ, w = k) ∨ (e ≠ 0 ∧ w < 2 ^ 52)) := by
  obtain ⟨neg', f, q, rfl, hm, hq, hn⟩ := exists_signedPattern y
  rw [val_signedPattern neg' hm hq.le hn]
  refine ⟨signFactor neg * signFactor neg' * (q * lastPlace f / lastPlace e), ?_, ?_⟩
  · have hL := (lastPlace_pos e).ne'
    have hs := signFactor_mul_self neg
    field_simp
    linear_combination (- signFactor neg' * lastPlace f * q) * hs
  · rcases le_or_gt e f with h | h
    · left
      obtain ⟨n, rfl⟩ := Nat.exists_eq_add_of_le h
      refine ⟨(if neg then -1 else 1) * (if neg' then -1 else 1) * (q * 2 ^ n), ?_⟩
      rw [lastPlace_add, ← mul_assoc, mul_div_cancel_right₀ _ (lastPlace_pos e).ne', signFactor, signFactor]
      push_cast
      rfl
    · right
      refine ⟨by omega, lt_of_le_of_lt (le_abs_self _) ?_⟩
      have hm := lastPlace_le_lastPlace (show f + 1 ≤ e by omega)
      rw [lastPlace_add] at hm
      have hq' : (q : ℚ) < 2 ^ 53 := by exact_mod_cast hq
      have := mul_lt_mul_of_pos_right hq' (lastPlace_pos f)
      have hp := lastPlace_pos f
      have hpe := lastPlace_pos e
      rw [abs_mul, abs_mul, abs_signFactor, abs_signFactor, abs_of_nonneg (by positivity), one_mul, one_mul,
        div_lt_iff₀ hpe]
      linarith

/-- A number of units that is whole, or lies below the binade the rounded number is in, is no nearer than the rounded one. -/
theorem roundHalfEven_nearest_units {x w : ℚ} (h : (∃ k : ℤ, w = k) ∨ (w < 2 ^ 52 ∧ 2 ^ 52 ≤ x)) :
    |(roundHalfEven x : ℚ) - x| ≤ |w - x|
      ∧ (|w - x| = |(roundHalfEven x : ℚ) - x| → w ≠ roundHalfEven x → roundHalfEven x % 2 = 0) := by
  obtain ⟨k, rfl⟩ | ⟨hw, hx⟩ := h
  · obtain ⟨hle, htie⟩ := roundHalfEven_nearest x k
    exact ⟨hle, fun he hne => htie he fun e => hne (by rw [e])⟩
  · have hlt : |(roundHalfEven x : ℚ) - x| < |w - x| := by
      have hb := (roundHalfEven_nearest x (2 ^ 52)).1
      rw [Int.cast_pow, Int.cast_ofNat, abs_of_nonpos (by linarith : (2 : ℚ) ^ 52 - x ≤ 0)] at hb
      rw [abs_of_neg (by linarith : w - x < 0)]
      linarith
    exact ⟨hlt.le, fun he => absurd he hlt.ne'⟩

theorem abs_signed_sub (neg : Bool) (w x : ℚ) (e : Nat) :
    |signFactor neg * (w * lastPlace e) - signFactor neg * (x * lastPlace e)| = |w - x| * lastPlace e := by
  rw [← mul_sub, ← sub_mul, abs_mul, abs_mul, abs_signFactor, one_mul, abs_of_pos (lastPlace_pos e)]

/-- Rounding the number of units is rounding to a nearest value of a pattern, even on a tie. -/
theorem rounded_units_nearest (neg : Bool) {e : Nat} {x : ℚ} (hx : e = 0 ∨ 2 ^ 52 ≤ x) (y : Word64) :
    |signFactor neg * (roundHalfEven x * lastPlace e) - signFactor neg * (x * lastPlace e)|
        ≤ |val y - signFactor neg * (x * lastPlace e)|
      ∧ (|val y - signFactor neg * (x * lastPlace e)|
          = |signFactor neg * (roundHalfEven x * lastPlace e) - signFactor neg * (x * lastPlace e)| →
        val y ≠ signFactor neg * (roundHalfEven x * lastPlace e) → roundHalfEven x % 2 = 0) := by
  obtain ⟨w, hy, hw⟩ := val_units neg e y
  obtain ⟨hle, htie⟩ := roundHalfEven_nearest_units (hw.imp_right fun ⟨h0, hlt⟩ => ⟨hlt, hx.resolve_left h0⟩)
  rw [hy, abs_signed_sub, abs_signed_sub]
  refine ⟨mul_le_mul_of_nonneg_right hle (lastPlace_pos e).le, fun he hne => ?_⟩
  exact htie (mul_right_cancel₀ (lastPlace_pos e).ne' he) fun hq => hne (by rw [hq])

/-! ### round64 -/

theorem round64_eq {r : ℚ} (h : r ≠ 0) : round64 r = signedPattern (decide (r < 0)) (roundMagnitude |r|) := by
  rw [round64, if_neg h, signedPattern]
  simp only [decide_eq_true_eq]

theorem signFactor_mul_abs (r : ℚ) : signFactor (decide (r < 0)) * |r| = r := by
  rcases lt_or_ge r 0 with h | h
  · simp [signFactor, h, abs_of_neg h]
  · simp [signFactor, h.not_gt, abs_of_nonneg h]

/-- Below the overflow threshold the magnitude bits are not clamped. -/
theorem round64_of_lt_threshold {r : ℚ} (h : r ≠ 0) (ht : |r| < 2 ^ 1024 - 2 ^ 970) :
    round64 r = signedPattern (decide (r < 0)) (binadeIndex |r| * 2 ^ 52 + roundedCount |r|) := by
  have hp := abs_pos.2 h
  rw [round64_eq h, roundMagnitude_eq hp, min_eq_left (magnitude_lt_of_lt_threshold hp ht).le]

/-- From the overflow threshold on the result is the infinity of the sign. -/
theorem round64_of_threshold_le {r : ℚ} (ht : 2 ^ 1024 - 2 ^ 970 ≤ |r|) :
    round64 r = signedPattern (decide (r < 0)) 0x7FF0000000000000 := by
  have hp : 0 < |r| := threshold_pos.trans_le ht
  rw [round64_eq (abs_pos.1 hp), roundMagnitude_eq hp, min_eq_right (le_magnitude_of_threshold_le ht)]

/-- The value of a rounding that does not overflow. -/
theorem val_round64 {r : ℚ} (h : r ≠ 0) (ht : |r| < 2 ^ 1024 - 2 ^ 970) :
    val (round64 r)
      = signFactor (decide (r < 0)) * (roundHalfEven (unitCount |r|) * lastPlace (binadeIndex |r|)) := by
  have hp := abs_pos.2 h
  have hm := magnitude_lt_of_lt_threshold hp ht
  rw [round64_of_lt_threshold h ht, val_signedPattern _ (by omega) (roundedCount_le hp) (roundedCount_ge hp),
    ← roundedCount_cast hp, Int.cast_natCast]

/-- The last bit of a rounding that does not overflow is clear when the rounded number of units is even. -/
theorem round64_bit_zero_of_even {r : ℚ} (h : r ≠ 0) (ht : |r| < 2 ^ 1024 - 2 ^ 970)
    (he : roundHalfEven (unitCount |r|) % 2 = 0) : (round64 r).getLsbD 0 = false := by
  have hp := abs_pos.2 h
  have hm := magnitude_lt_of_lt_threshold hp ht
  have hc := roundedCount_cast hp
  rw [round64_of_lt_threshold h ht, signedPattern_bit_zero _ (by omega), decide_eq_false_iff_not]
  omega

theorem finite_round64 {r : ℚ} (h : r ≠ 0) (ht : |r| < 2 ^ 1024 - 2 ^ 970) : finite (round64 r) = true := by
  rw [round64_of_lt_threshold h ht]
  exact finite_signedPattern _ (magnitude_lt_of_lt_threshold (abs_pos.2 h) ht)

/-- No pattern is nearer than a rounding that does not overflow, and on a tie the rounding is even. -/
theorem round64_nearest {r : ℚ} (h : r ≠ 0) (ht : |r| < 2 ^ 1024 - 2 ^ 970) (y : Word64) :
    |val (round64 r) - r| ≤ |val y - r|
      ∧ (|val y - r| = |val (round64 r) - r| → val y ≠ val (round64 r) → (round64 r).getLsbD 0 = false) := by
  have hn := rounded_units_nearest (decide (r < 0)) (unitCount_ge (abs_pos.2 h)) y
  rw [← val_round64 h ht, unitCount_mul, signFactor_mul_abs] at hn
  exact hn.imp_right fun htie he hne => round64_bit_zero_of_even h ht (htie he hne)

theorem round64_zero : round64 0 = 0 := if_pos rfl

theorem val_zero : val 0 = 0 := by
  have h := val_signedPattern false (e := 0) (q := 0) (by norm_num) (by norm_num) (.inl rfl)
  rwa [Nat.cast_zero, zero_mul (lastPlace 0), mul_zero] at h

/-- Settles O34: away from 0 the rational is a number of units of its binade, and every pattern's value is a whole number of
the same units or lies below the binade. -/
theorem roundingGivesTheNearestPattern : Obligations.RoundingGivesTheNearestPattern := by
  refine ⟨round64_zero, fun r ht => ?_, fun r ht => ?_, fun r ht => ?_⟩
  · rcases eq_or_ne r 0 with rfl | h
    · rw [round64_zero, val_zero]
      exact ⟨rfl, fun y _ => ⟨by rw [sub_zero, abs_zero]; exact abs_nonneg _, fun _ _ => rfl⟩⟩
    · exact ⟨finite_round64 h ht, fun y _ => round64_nearest h ht y⟩
  · have hr : 0 ≤ r := threshold_pos.le.trans ht
    rw [round64_of_threshold_le (ht.trans (le_abs_self r)), decide_eq_false hr.not_gt]
    rfl
  · have hr : r < 0 := ht.trans_lt (neg_lt_zero.2 threshold_pos)
    rw [round64_of_threshold_le ((le_neg.1 ht).trans (neg_le_abs r)), decide_eq_true hr]
    rfl

/-! ### Rounding a representable value -/

/-- The binade of a number of units that has the implicit bit, or is a subnormal's. -/
theorem binadeIndex_units {e q : Nat} (h0 : 0 < q) (hq : q < 2 ^ 53) (hn : e = 0 ∨ 2 ^ 52 ≤ q) :
    binadeIndex (q * lastPlace e) = e := by
  have hL := lastPlace_pos e
  have hp : (0 : ℚ) < q * lastPlace e := by positivity
  have hq' : (q : ℚ) < 2 ^ 53 := by exact_mod_cast hq
  have hlt : Int.log 2 ((q : ℚ) * lastPlace e) < (e : ℤ) - 1022 + 1 := by
    rw [← Int.lt_zpow_iff_log_lt (by norm_num) hp, Nat.cast_ofNat, zpow_add_one₀ (by norm_num), zpow_eq_lastPlace]
    linarith [mul_lt_mul_of_pos_right hq' hL]
  have hge : e = 0 ∨ (e : ℤ) - 1022 ≤ Int.log 2 ((q : ℚ) * lastPlace e) := by
    refine hn.imp_right fun h => ?_
    rw [← Int.zpow_le_iff_le_log (by norm_num) hp, Nat.cast_ofNat, zpow_eq_lastPlace]
    exact mul_le_mul_of_nonneg_right (by exact_mod_cast h) hL.le
  unfold binadeIndex binade
  omega

/-- The magnitude bits of a representable value are its own. -/
theorem roundMagnitude_units {e q : Nat} (h0 : 0 < q) (hq : q < 2 ^ 53) (hn : e = 0 ∨ 2 ^ 52 ≤ q)
    (hm : e * 2 ^ 52 + q ≤ 0x7FF0000000000000) : roundMagnitude (q * lastPlace e) = e * 2 ^ 52 + q := by
  have hp : (0 : ℚ) < q * lastPlace e := mul_pos (by exact_mod_cast h0) (lastPlace_pos e)
  have hu : unitCount (q * lastPlace e) = ((q : ℤ) : ℚ) := by
    rw [unitCount, binadeIndex_units h0 hq hn, mul_div_cancel_right₀ _ (lastPlace_pos e).ne', Int.cast_natCast]
  rw [roundMagnitude_eq hp, roundedCount, hu, roundHalfEven_intCast, binadeIndex_units h0 hq hn, Int.toNat_natCast,
    min_eq_left hm]

theorem signFactor_mul_pos (neg : Bool) {a : ℚ} (h : 0 < a) :
    decide (signFactor neg * a < 0) = neg ∧ |signFactor neg * a| = a := by
  constructor
  · cases neg <;> simp [signFactor, h, h.le]
  · rw [abs_mul, abs_signFactor, one_mul, abs_of_pos h]

/-- Settles O35: a finite non-zero value is a whole number of units of the binade it is in, so the rounding keeps it. -/
theorem roundingKeepsRepresentableValues : Obligations.RoundingKeepsRepresentableValues := by
  intro x hf hv
  obtain ⟨neg, e, q, rfl, hm, hq, hn⟩ := exists_signedPattern x
  rw [finite, expField_signedPattern neg hm, decide_eq_true_eq] at hf
  rw [val_signedPattern neg hm hq.le hn] at hv ⊢
  have h0 : 0 < q := Nat.pos_of_ne_zero fun h => hv (by rw [h, Nat.cast_zero, zero_mul, mul_zero])
  obtain ⟨hs, ha⟩ := signFactor_mul_pos neg (mul_pos (Nat.cast_pos.2 h0) (lastPlace_pos e))
  rw [round64_eq hv, hs, ha, roundMagnitude_units h0 hq hn (by omega)]

/-! ### The values of known patterns -/

/-- Settles O33: each value is a closed rational, computed from the pattern's fields. -/
theorem binaryValuesOfKnownPatterns : Obligations.BinaryValuesOfKnownPatterns := by
  unfold Obligations.BinaryValuesOfKnownPatterns
  decide +kernel

end Sys2Proof.Machine
end

section
/-! PROOFS. A step runs the command the word written to CMD names. -/

namespace Sys2Proof.Machine

/-- The word `withFetchWord` writes to CMD is the word the opcode table numbers. -/
theorem setWidth_fetchWord (w : Nat) :
    (BitVec.ofNat 64 (w % 2 ^ 32 % 2 ^ 32)).setWidth 32 = BitVec.ofNat 32 (w % 2 ^ 32) := by
  apply BitVec.eq_of_toNat_eq
  rw [BitVec.toNat_setWidth, BitVec.toNat_ofNat, BitVec.toNat_ofNat]
  omega

theorem decode_of_decodeTableWord {n w : Nat} {i : Instr} (h : decodeTableWord n w = some i) :
    decode (BitVec.ofNat 32 (w % 2 ^ n)) = .instr i := by
  unfold decodeTableWord at h
  cases hd : decode (BitVec.ofNat 32 (w % 2 ^ n)) with
  | instr j =>
    rw [hd] at h
    exact congrArg Decoded.instr (Option.some.inj h)
  | illegal why =>
    rw [hd] at h
    cases h

/-- Settles O9: the next host action is a write of CMD, so the step runs the word it carries. -/
theorem stepRunsTheDecodedCommand : Obligations.StepRunsTheDecodedCommand := by
  constructor
  · intro s data rest i hs hd
    rw [step_command s data rest hs, runCommand_instr hd]
  · intro s w i hd
    rw [step_command _ _ _ rfl, setWidth_fetchWord, runCommand_instr (decode_of_decodeTableWord hd)]
    rfl

end Sys2Proof.Machine
end

section
/-! PROOFS. The frame's state. What every command can do is said once, as a relation with one constructor per outcome;
the legal STATUS words, the writers of every register and the cursors follow from it by its cases. -/

namespace Sys2Proof.Machine

/-! ### What a command can do -/

/-- The outcomes of a command in the state `s`, with the guard of each: `Completes s i t` says that `i` ends in `t`. -/
inductive Completes (s : State) : Instr → State → Prop
  | new : Completes s .new (finish false false false (construct Payload.zero 0 s))
  | load : Completes s .load { loadWith (Config.loadMirror s.loads) s with loads := s.loads + 1 }
  | toMir : Completes s .toMir
      (finishUnlessZero (decide (mirrorOf s.payload = 0)) { s with mirror := mirrorOf s.payload })
  | fromMir : Completes s .fromMir (finish false false false { s with payload := payloadOf s.mirror })
  | enc {u : FieldUnit} {sg : Bool} {st ln : Nat} (hb : toBits u st + toBits u ln ≤ 64) :
      Completes s (.enc u sg st ln) (encField Config.platform sg (toBits u st) (toBits u ln) s)
  | encBounds {u : FieldUnit} {sg : Bool} {st ln : Nat} (hb : 64 < toBits u st + toBits u ln) :
      Completes s (.enc u sg st ln) (raise .bounds s)
  | dec {u : FieldUnit} {tw : TargetWidth} {st ln : Nat} (hb : toBits u st + toBits u ln ≤ 64) :
      Completes s (.dec u tw st ln) (finishDec tw (extractField s.mirror (toBits u st) (toBits u ln)) s)
  | decBounds {u : FieldUnit} {tw : TargetWidth} {st ln : Nat} (hb : 64 < toBits u st + toBits u ln) :
      Completes s (.dec u tw st ln) (raise .bounds s)
  | encb {nb : Nat} (hb : s.wcur.toNat + nb ≤ 7) :
      Completes s (.encb nb) (finish false false false (writeBytes nb s.opa.toNat s))
  | encbBounds {nb : Nat} (hb : 7 < s.wcur.toNat + nb) : Completes s (.encb nb) (raise .bounds s)
  | decb {nb : Nat} (hb : s.rcur.toNat + nb ≤ 7) : Completes s (.decb nb) (finishDecb nb (readBytes nb s) s)
  | decbBounds {nb : Nat} (hb : 7 < s.rcur.toNat + nb) : Completes s (.decb nb) (raise .bounds s)
  | qenc {u : FieldUnit} {st ln : Nat} (hd : inDomain s.qv s.qmin s.qmax = true)
      (hb : toBits u st + toBits u ln ≤ 64) :
      Completes s (.qenc u st ln) (qencField Config.platform
        (qMapBit (val s.qv) (val s.qmin) (val s.qmax) (toBits u ln)) (toBits u st) (toBits u ln) s)
  | qencDomain {u : FieldUnit} {st ln : Nat} (hd : inDomain s.qv s.qmin s.qmax = false) :
      Completes s (.qenc u st ln) (raise .domain s)
  | qencBounds {u : FieldUnit} {st ln : Nat} (hd : inDomain s.qv s.qmin s.qmax = true)
      (hb : 64 < toBits u st + toBits u ln) : Completes s (.qenc u st ln) (raise .bounds s)
  | qdec {u : FieldUnit} {st ln : Nat} (hb : toBits u st + toBits u ln ≤ 64)
      (hz : extractField s.mirror (toBits u st) (toBits u ln) ≠ 0) (hf : boundsFinite s.qmin s.qmax = true) :
      Completes s (.qdec u st ln) (finish false false false { s with
        qresult := round64 (qUnmapBit (extractField s.mirror (toBits u st) (toBits u ln)).toNat (val s.qmin)
          (val s.qmax) (toBits u ln)) })
  | qdecZero {u : FieldUnit} {st ln : Nat} (hb : toBits u st + toBits u ln ≤ 64)
      (hz : extractField s.mirror (toBits u st) (toBits u ln) = 0) :
      Completes s (.qdec u st ln) (failDecode .ambZero s)
  | qdecDomain {u : FieldUnit} {st ln : Nat} (hb : toBits u st + toBits u ln ≤ 64)
      (hz : extractField s.mirror (toBits u st) (toBits u ln) ≠ 0) (hf : boundsFinite s.qmin s.qmax = false) :
      Completes s (.qdec u st ln) (failDecode .domain s)
  | qdecBounds {u : FieldUnit} {st ln : Nat} (hb : 64 < toBits u st + toBits u ln) :
      Completes s (.qdec u st ln) (failDecode .bounds s)
  | qencb {nb : Nat} (hd : inDomain s.qv s.qmin s.qmax = true) (hn : nb ≠ 0) (hb : s.wcur.toNat + nb ≤ 7) :
      Completes s (.qencb nb) (finish false false false
        (writeBytes nb (qMapByte (val s.qv) (val s.qmin) (val s.qmax) nb) s))
  | qencbDomain {nb : Nat} (hd : inDomain s.qv s.qmin s.qmax = false) : Completes s (.qencb nb) (raise .domain s)
  | qencbBounds {nb : Nat} (hd : inDomain s.qv s.qmin s.qmax = true) (hb : nb = 0 ∨ 7 < s.wcur.toNat + nb) :
      Completes s (.qencb nb) (raise .bounds s)
  | qdecb {nb : Nat} (hn : nb ≠ 0) (hb : s.rcur.toNat + nb ≤ 7) (hz : readBytes nb s ≠ 0)
      (hf : boundsFinite s.qmin s.qmax = true) :
      Completes s (.qdecb nb) (finish false false false { s with
        rcur := advance s.rcur nb
        qresult := round64 (qUnmapByte (readBytes nb s) (val s.qmin) (val s.qmax) nb) })
  | qdecbZero {nb : Nat} (hn : nb ≠ 0) (hb : s.rcur.toNat + nb ≤ 7) (hz : readBytes nb s = 0) :
      Completes s (.qdecb nb) (failDecode .ambZero { s with rcur := advance s.rcur nb })
  | qdecbDomain {nb : Nat} (hn : nb ≠ 0) (hb : s.rcur.toNat + nb ≤ 7) (hz : readBytes nb s ≠ 0)
      (hf : boundsFinite s.qmin s.qmax = false) :
      Completes s (.qdecb nb) (failDecode .domain { s with rcur := advance s.rcur nb })
  | qdecbBounds {nb : Nat} (hb : nb = 0 ∨ 7 < s.rcur.toNat + nb) : Completes s (.qdecb nb) (failDecode .bounds s)
  | getErr : Completes s .getErr (getErrWith Config.platform s)
  | setErr : Completes s .setErr (setErrWith Config.platform s)
  | hdr : Completes s .hdr (hdrWith Config.platform s)

/-- Every command answers a next state, and it is one of its outcomes. -/
theorem exec_completes (i : Instr) (s : State) : ∃ t, exec i s = .next t ∧ Completes s i t := by
  cases i with
  | new => exact ⟨_, rfl, .new⟩
  | load => exact ⟨_, rfl, .load⟩
  | toMir => exact ⟨_, rfl, .toMir⟩
  | fromMir => exact ⟨_, rfl, .fromMir⟩
  | enc u sg st ln =>
    rcases Nat.lt_or_ge 64 (toBits u st + toBits u ln) with hb | hb
    · exact ⟨_, exec_enc_outOfBounds sg s hb, .encBounds hb⟩
    · exact ⟨_, exec_enc_inBounds sg s hb, .enc hb⟩
  | dec u tw st ln =>
    rcases Nat.lt_or_ge 64 (toBits u st + toBits u ln) with hb | hb
    · exact ⟨_, exec_dec_outOfBounds tw s hb, .decBounds hb⟩
    · exact ⟨_, exec_dec_inBounds tw s hb, .dec hb⟩
  | encb nb =>
    rcases Nat.lt_or_ge 7 (s.wcur.toNat + nb) with hb | hb
    · exact ⟨_, exec_encb_outOfBounds hb, .encbBounds hb⟩
    · exact ⟨_, exec_encb_inBounds hb, .encb hb⟩
  | decb nb =>
    rcases Nat.lt_or_ge 7 (s.rcur.toNat + nb) with hb | hb
    · exact ⟨_, exec_decb_outOfBounds hb, .decbBounds hb⟩
    · exact ⟨_, exec_decb_inBounds hb, .decb hb⟩
  | qenc u st ln =>
    cases hd : inDomain s.qv s.qmin s.qmax with
    | false => exact ⟨_, exec_qenc_outOfDomain u st ln hd, .qencDomain hd⟩
    | true =>
      rcases Nat.lt_or_ge 64 (toBits u st + toBits u ln) with hb | hb
      · exact ⟨_, exec_qenc_outOfBounds hd hb, .qencBounds hd hb⟩
      · exact ⟨_, exec_qenc_inBounds hd hb, .qenc hd hb⟩
  | qdec u st ln =>
    rcases Nat.lt_or_ge 64 (toBits u st + toBits u ln) with hb | hb
    · exact ⟨_, exec_qdec_outOfBounds hb, .qdecBounds hb⟩
    · by_cases hz : extractField s.mirror (toBits u st) (toBits u ln) = 0
      · exact ⟨_, by rw [exec_qdec_inBounds hb, finishQdec, if_pos hz], .qdecZero hb hz⟩
      · cases hf : boundsFinite s.qmin s.qmax with
        | false =>
          exact ⟨_, by rw [exec_qdec_inBounds hb, finishQdec, if_neg hz, if_neg (ne_true_of_eq_false hf)],
            .qdecDomain hb hz hf⟩
        | true => exact ⟨_, by rw [exec_qdec_inBounds hb, finishQdec, if_neg hz, if_pos hf], .qdec hb hz hf⟩
  | qencb nb =>
    cases hd : inDomain s.qv s.qmin s.qmax with
    | false => exact ⟨_, exec_qencb_outOfDomain nb hd, .qencbDomain hd⟩
    | true =>
      by_cases hb : nb = 0 ∨ 7 < s.wcur.toNat + nb
      · exact ⟨_, exec_qencb_outOfBounds hd hb, .qencbBounds hd hb⟩
      · obtain ⟨hn, hw⟩ : nb ≠ 0 ∧ s.wcur.toNat + nb ≤ 7 := by omega
        exact ⟨_, exec_qencb_inBounds hd hn hw, .qencb hd hn hw⟩
  | qdecb nb =>
    by_cases hb : nb = 0 ∨ 7 < s.rcur.toNat + nb
    · exact ⟨_, exec_qdecb_outOfBounds hb, .qdecbBounds hb⟩
    · obtain ⟨hn, hr⟩ : nb ≠ 0 ∧ s.rcur.toNat + nb ≤ 7 := by omega
      by_cases hz : readBytes nb s = 0
      · exact ⟨_, by rw [exec_qdecb_inBounds hn hr, finishQdecb, if_pos hz], .qdecbZero hn hr hz⟩
      · cases hf : boundsFinite s.qmin s.qmax with
        | false =>
          exact ⟨_, by rw [exec_qdecb_inBounds hn hr, finishQdecb, if_neg hz, if_neg (ne_true_of_eq_false hf)],
            .qdecbDomain hn hr hz hf⟩
        | true => exact ⟨_, by rw [exec_qdecb_inBounds hn hr, finishQdecb, if_neg hz, if_pos hf], .qdecb hn hr hz hf⟩
  | getErr => exact ⟨_, rfl, .getErr⟩
  | setErr => exact ⟨_, rfl, .setErr⟩
  | hdr => exact ⟨_, rfl, .hdr⟩

theorem completes_of_exec {i : Instr} {s t : State} (h : exec i s = .next t) : Completes s i t := by
  obtain ⟨t', h', hc⟩ := exec_completes i s
  cases h.symm.trans h'
  exact hc

/-! ### The ends of the decoding commands, as one record update each -/

theorem finishDec_eq (tw : TargetWidth) (f : Word64) (s : State) :
    finishDec tw f s = { s with result := castTo tw f, status := if f = 0 then 0x00000003#32 else 0x00000000#32 } := by
  simp [finishDec, finishUnlessZero_eq]

theorem finishDecb_eq (nb v : Nat) (s : State) :
    finishDecb nb v s = { s with
      rcur := advance s.rcur nb, result := BitVec.ofNat 64 v
      status := if v = 0 then 0x00000003#32 else 0x00000000#32 } := by
  simp [finishDecb, finishUnlessZero_eq]

/-! ### STATUS -/

theorem statusLegal_congr {s t : State} (h : t.status = s.status) : StatusLegal t = StatusLegal s := by
  rw [StatusLegal, h, StatusLegal]

theorem statusLegal_raise (k : Code) (s : State) : StatusLegal (raise k s) = true := by
  cases k <;> rfl

theorem statusLegal_finish_changed (changed : Bool) (s : State) :
    StatusLegal (finish changed false false s) = true := by
  cases changed <;> rfl

theorem statusLegal_finish_warned (signed overlap : Bool) (s : State) :
    StatusLegal (finish false signed overlap s) = true := by
  cases signed <;> cases overlap <;> rfl

theorem statusLegal_finishUnlessZero (isZero : Bool) (s : State) :
    StatusLegal (finishUnlessZero isZero s) = true := by
  cases isZero <;> rfl

theorem statusLegal_failDecode (k : Code) (s : State) : StatusLegal (failDecode k s) = true :=
  statusLegal_raise k _

/-- Every outcome of a command ends by one of the shared endings, and each of them writes a legal STATUS word. -/
theorem Completes.statusLegal {i : Instr} {s t : State} : Completes s i t → StatusLegal t = true
  | .new | .fromMir | .encb _ | .qencb .. | .qdec .. | .qdecb .. | .getErr | .setErr => statusLegal_finish_changed _ _
  | .load => (statusLegal_congr rfl).trans (statusLegal_finish_changed false s)
  | .enc _ | .qenc .. | .hdr => statusLegal_finish_warned _ _ _
  | .toMir | .dec _ | .decb _ => statusLegal_finishUnlessZero _ _
  | .encBounds _ | .decBounds _ | .encbBounds _ | .decbBounds _ | .qencDomain _ | .qencBounds .. | .qencbDomain _
  | .qencbBounds .. => statusLegal_raise _ _
  | .qdecZero .. | .qdecDomain .. | .qdecBounds _ | .qdecbZero .. | .qdecbDomain .. | .qdecbBounds _ =>
    statusLegal_failDecode _ _

/-- Settles O10: every outcome of a command writes a legal STATUS word. -/
theorem everyCommandCompletesWithLegalStatus : Obligations.EveryCommandCompletesWithLegalStatus := by
  intro i s
  obtain ⟨t, ht, hc⟩ := exec_completes i s
  exact ⟨t, ht, hc.statusLegal⟩

theorem writeReg_status (r : HostReg) (data : Word64) (s : State) : (writeReg r data s).status = s.status := by
  cases r <;> rfl

/-- Settles O11, by the cases of a step: a command or an illegal word writes a legal STATUS word, the reset input writes 0,
and every other host action keeps STATUS. -/
theorem everyStepKeepsStatusLegal : Obligations.EveryStepKeepsStatusLegal := by
  intro s t hs h
  obtain ⟨-, rfl⟩ | ⟨a, rest, -, hcmd | hill | hwrite | hread | hreset⟩ := step_cases h
  · exact hs
  · obtain ⟨-, i, -, -, he⟩ := hcmd
    exact (completes_of_exec he).statusLegal
  · obtain ⟨-, -, -, rfl⟩ := hill
    exact statusLegal_raise _ _
  · obtain ⟨r, data, -, -, rfl⟩ := hwrite
    rw [statusLegal_congr (writeReg_status r data _)]
    exact hs
  · obtain ⟨r, -, rfl⟩ := hread
    exact hs
  · obtain ⟨-, rfl⟩ := hreset
    rfl

/-! ### The writers of the registers -/

/-- What a command may write and what it keeps, whichever outcome it takes: ID and EXT at NEW and LOAD, each of PAYLOAD,
MIRROR, RESULT and QRESULT at its own writers, and never an operand register (R21 to R24, R30 to R36). -/
theorem Completes.frame {i : Instr} {s t : State} (h : Completes s i t) :
    t = { s with
      id := if Claim.constructs i then s.opid else s.id
      ext := if Claim.constructs i then s.opext else s.ext
      payload := if Claim.mayWritePayload i then t.payload else s.payload
      mirror := if Claim.mayWriteMirror i then t.mirror else s.mirror
      result := if Claim.mayWriteResult i then t.result else s.result
      qresult := if Claim.mayWriteQresult i then t.qresult else s.qresult
      wcur := t.wcur, rcur := t.rcur, status := t.status, loads := t.loads, diag := t.diag } := by
  cases h with
  | toMir => rw [finishUnlessZero_eq]; rfl
  | dec => rw [finishDec_eq]; rfl
  | decb => rw [finishDecb_eq]; rfl
  | _ => rfl

/-- Settles O54, by the frame of a command. -/
theorem commandsKeepIdentityAndOperands : Obligations.CommandsKeepIdentityAndOperands := by
  intro i s t h
  have hf := (completes_of_exec h).frame
  refine ⟨fun hi => ?_, ?_⟩
  · have hid : t.id = s.id := by simpa [hi] using congrArg State.id hf
    have hext : t.ext = s.ext := by simpa [hi] using congrArg State.ext hf
    exact ⟨hid, hext, fun c => congrArg c.messageKindOf hid⟩
  · exact ⟨(congrArg State.opa hf :), (congrArg State.opb hf :), (congrArg State.qv hf :), (congrArg State.qmin hf :),
      (congrArg State.qmax hf :), (congrArg State.opid hf :), (congrArg State.opext hf :), (congrArg State.pin hf :)⟩

/-- Settles O55, by the frame of a command. -/
theorem registersHaveOnlyTheirWriters : Obligations.RegistersHaveOnlyTheirWriters := by
  intro i s t h
  have hf := (completes_of_exec h).frame
  refine ⟨fun hi => ?_, fun hi => ?_, fun hi => ?_, fun hi => ?_⟩
  · simpa [hi] using congrArg State.mirror hf
  · simpa [hi] using congrArg State.payload hf
  · simpa [hi] using congrArg State.result hf
  · simpa [hi] using congrArg State.qresult hf

/-! ### The cursors -/

theorem le_advance {c : BitVec 3} {n : Nat} (h : c.toNat + n ≤ 7) : c.toNat ≤ (advance c n).toNat := by
  rw [advance_toNat c n h]
  exact Nat.le_add_right _ _

/-- The bounds test of the legacy codec keeps an advanced cursor from wrapping; no other outcome but NEW and LOAD moves
one (R25, R26). -/
theorem Completes.cursors {i : Instr} {s t : State} (h : Completes s i t) :
    (Claim.constructs i = false → s.wcur.toNat ≤ t.wcur.toNat ∧ s.rcur.toNat ≤ t.rcur.toNat)
    ∧ (Claim.constructs i = true → t.wcur = 0 ∧ t.rcur = 0) := by
  cases h with
  | new | load => exact ⟨nofun, fun _ => ⟨rfl, rfl⟩⟩
  | encb hb | qencb _ _ hb => exact ⟨fun _ => ⟨le_advance hb, le_rfl⟩, nofun⟩
  | decb hb => rw [finishDecb_eq]; exact ⟨fun _ => ⟨le_rfl, le_advance hb⟩, nofun⟩
  | qdecb _ hb | qdecbZero _ hb | qdecbDomain _ hb => exact ⟨fun _ => ⟨le_rfl, le_advance hb⟩, nofun⟩
  | toMir => rw [finishUnlessZero_eq]; exact ⟨fun _ => ⟨le_rfl, le_rfl⟩, nofun⟩
  | dec => rw [finishDec_eq]; exact ⟨fun _ => ⟨le_rfl, le_rfl⟩, nofun⟩
  | _ => exact ⟨fun _ => ⟨le_rfl, le_rfl⟩, nofun⟩

/-- Settles O56, by the outcomes of a command. -/
theorem cursorsNeverDecrease : Obligations.CursorsNeverDecrease := fun _ _ _ h => (completes_of_exec h).cursors

/-! ### Payload byte 7 and the legacy codec -/

/-- A write that ends before byte 7 keeps it. -/
theorem memWrite_get_seven (p : Payload) {a n : Nat} (v : Nat) (h : a + n ≤ 7) : (memWrite p a n v)[7] = p[7] :=
  (memWrite_get p a n v 7).trans (if_neg fun ⟨_, hlt⟩ => absurd h (Nat.not_le.2 hlt))

theorem payloadByte_set_seven (p : Payload) (b : Byte) {i : Nat} (h : i < 7) :
    payloadByte (p.set 7 b) i = payloadByte p i := by
  have hi : i < 8 := by omega
  rw [payloadByte_eq _ ⟨i, hi⟩, payloadByte_eq _ ⟨i, hi⟩]
  exact Vector.getElem_set_ne _ _ (Nat.ne_of_gt h)

/-- A read at RCUR that passes the legacy bounds test does not see byte 7 (R130). -/
theorem readBytes_set_seven {nb : Nat} (b : Byte) {s : State} (h : s.rcur.toNat + nb ≤ 7) :
    readBytes nb { s with payload := s.payload.set 7 b } = readBytes nb s :=
  memRead_congr fun _ hk => payloadByte_set_seven _ b (Nat.lt_of_lt_of_le (Nat.add_lt_add_left hk _) h)

theorem finishDecb_withPayload (nb v : Nat) (p : Payload) (s : State) :
    finishDecb nb v { s with payload := p } = { finishDecb nb v s with payload := p } := by
  rw [finishDecb_eq, finishDecb_eq]

theorem finishQdecb_withPayload (q nb : Nat) (p : Payload) (s : State) :
    finishQdecb q nb { s with payload := p } = { finishQdecb q nb s with payload := p } := by
  unfold finishQdecb
  split
  · rfl
  · split <;> rfl

/-- The writers of the legacy codec keep payload byte 7, in bounds and out of bounds. -/
theorem Completes.payload_seven {i : Instr} {nb : Nat} {s t : State} (h : Completes s i t)
    (hi : i = .encb nb ∨ i = .qencb nb) : t.payload[7] = s.payload[7] := by
  rcases hi with rfl | rfl
  · cases h with
    | encb hb => exact memWrite_get_seven _ _ hb
    | encbBounds => rfl
  · cases h with
    | qencb _ _ hb => exact memWrite_get_seven _ _ hb
    | qencbDomain | qencbBounds => rfl

theorem exec_decb_set_seven (nb : Nat) (b : Byte) (s : State) :
    ∃ t, exec (.decb nb) s = .next t
      ∧ exec (.decb nb) { s with payload := s.payload.set 7 b } = .next { t with payload := s.payload.set 7 b } := by
  rcases Nat.lt_or_ge 7 (s.rcur.toNat + nb) with hb | hb
  · exact ⟨_, exec_decb_outOfBounds hb, exec_decb_outOfBounds hb⟩
  · refine ⟨_, exec_decb_inBounds hb, (exec_decb_inBounds (s := { s with payload := s.payload.set 7 b }) hb).trans ?_⟩
    rw [readBytes_set_seven b hb, finishDecb_withPayload]

theorem exec_qdecb_set_seven (nb : Nat) (b : Byte) (s : State) :
    ∃ t, exec (.qdecb nb) s = .next t
      ∧ exec (.qdecb nb) { s with payload := s.payload.set 7 b } = .next { t with payload := s.payload.set 7 b } := by
  by_cases hb : nb = 0 ∨ 7 < s.rcur.toNat + nb
  · exact ⟨_, exec_qdecb_outOfBounds hb, exec_qdecb_outOfBounds hb⟩
  · obtain ⟨hn, hr⟩ : nb ≠ 0 ∧ s.rcur.toNat + nb ≤ 7 := by omega
    refine ⟨_, exec_qdecb_inBounds hn hr,
      (exec_qdecb_inBounds (s := { s with payload := s.payload.set 7 b }) hn hr).trans ?_⟩
    rw [readBytes_set_seven b hr]
    exact congrArg _ (finishQdecb_withPayload _ _ _ { s with rcur := advance s.rcur nb })

/-- Settles O32: every access of the legacy codec that passes its bounds test ends before byte 7. -/
theorem legacyCodecNeverReachesByteSeven : Obligations.LegacyCodecNeverReachesByteSeven := by
  intro nb b s
  constructor
  · intro i hi
    obtain ⟨t, ht, hc⟩ := exec_completes i s
    exact ⟨t, ht, hc.payload_seven (by simpa using hi)⟩
  · intro i hi
    obtain rfl | rfl : i = .decb nb ∨ i = .qdecb nb := by simpa using hi
    · exact exec_decb_set_seven nb b s
    · exact exec_qdecb_set_seven nb b s

/-! ### The reset values -/

theorem payloadZero_get (i : Fin 8) : Payload.zero[i] = 0 :=
  Vector.getElem_replicate i.isLt

/-- Settles O13: the reset state's literal values, and the two representations of a zeroed frame agree. -/
theorem resetValuesAreZero : Obligations.ResetValuesAreZero := by
  have hsync : Synchronised State.reset := by decide
  exact ⟨rfl, rfl, payloadZero_get, rfl, rfl, rfl, rfl, rfl, rfl, rfl, rfl, rfl, rfl, rfl, rfl, rfl, payloadZero_get,
    hsync, rfl⟩

end Sys2Proof.Machine
end

section
/-! PROOFS. The host's accesses. The places of the map are those of the registers, so that an access is defined exactly at a
register's own offset and width; one equation per host action says what it does, and the run of defined actions follows by
induction on its steps. -/

namespace Sys2Proof.Machine

/-! ### The register map (R56, R57) -/

/-- Where the host reaches a register: its offset and its width. -/
def regPlace (r : HostReg) : Nat × Nat := (regOffset r, regWidth r)

theorem mem_allRegs (r : HostReg) : r ∈ allRegs := by
  cases r with
  | pin i => revert i; decide
  | payload i => revert i; decide
  | _ => decide

theorem hostMap_eq : Claim.hostMap = allRegs.map regPlace := rfl

theorem readOnlyMap_eq :
    Claim.readOnlyMap = (allRegs.filter fun r => !isOperandReg r && decide (r ≠ .cmd)).map regPlace := rfl

/-- The places of the map are exactly those at which an access reaches a register. -/
theorem mem_hostMap_iff (offset width : Nat) :
    (offset, width) ∈ Claim.hostMap ↔ ∃ r, accessed offset width = some r := by
  simp only [hostMap_eq, List.mem_map, mem_allRegs, true_and, regPlace, Prod.mk.injEq, accessed_eq_some_iff]

theorem accessed_eq_none_of_not_mem {offset width : Nat} (h : (offset, width) ∉ Claim.hostMap) :
    accessed offset width = none :=
  Option.eq_none_iff_forall_ne_some.2 fun r hr => h ((mem_hostMap_iff _ _).2 ⟨r, hr⟩)

theorem accessed_reg (r : HostReg) : accessed (regOffset r) (regWidth r) = some r :=
  (accessed_eq_some_iff _ _ _).2 ⟨rfl, rfl⟩

theorem regValue_pin_toNat (c : Config.Params) (i : Fin 8) (s : State) :
    (regValue c (.pin i) s).toNat = s.pin[i].toNat := by
  rw [regValue, payloadByte_eq, BitVec.toNat_setWidth_of_le (by decide)]

theorem regValue_payload_toNat (c : Config.Params) (i : Fin 8) (s : State) :
    (regValue c (.payload i) s).toNat = s.payload[i].toNat := by
  rw [regValue, payloadByte_eq, BitVec.toNat_setWidth_of_le (by decide)]

/-- What the host sees is, register by register, the number it reads there: zero-extension keeps the number. -/
theorem hostView_eq (c : Config.Params) (s : State) :
    Claim.hostView c s = allRegs.map fun r => (regOffset r, regWidth r, (regValue c r s).toNat) := by
  simp only [Claim.hostView, allRegs, List.map_append, List.map_map, Function.comp_def, regValue_pin_toNat,
    regValue_payload_toNat, regOffset, regWidth]
  congr 2
  simp (disch := decide) only [List.map_cons, List.map_nil, regValue, BitVec.toNat_setWidth_of_le, kindOf]
  cases c.messageKindOf s.id <;> rfl

/-! ### One host action -/

theorem step_of_inputs {a : HostAction} {rest : List HostAction} {s : State} (h : s.inputs = a :: rest) :
    step s = perform a { s with inputs := rest } := by
  rw [step, hostStep, h]

theorem step_idle {s : State} (h : s.inputs = []) : step s = .next s := by
  rw [step, hostStep, h]

theorem perform_read (r : HostReg) (s : State) :
    perform (.read (regOffset r) (regWidth r)) s
      = .next { s with readData := s.readData ++ [regValue Config.platform r s] } := by
  rw [perform, hostRead, accessed_reg]

theorem perform_write_cmd (data : Word64) (s : State) :
    perform (.write (regOffset .cmd) (regWidth .cmd) data) s = runCommand (data.setWidth 32) s := by
  rw [perform, hostWrite, accessed_reg]

theorem perform_write {r : HostReg} (hr : r ≠ .cmd) (data : Word64) (s : State) :
    perform (.write (regOffset r) (regWidth r) data) s = .next (writeReg r data s) := by
  rw [perform, hostWrite, accessed_reg]
  cases r with
  | cmd => exact absurd rfl hr
  | _ => rfl

theorem perform_read_undefined {offset width : Nat} (h : accessed offset width = none) (s : State) :
    perform (.read offset width) s = .refused (.undefinedAccess offset width) := by
  rw [perform, hostRead, h]

theorem perform_write_undefined {offset width : Nat} (h : accessed offset width = none) (data : Word64) (s : State) :
    perform (.write offset width data) s = .refused (.undefinedAccess offset width) := by
  rw [perform, hostWrite, h]

/-! ### What a read and a write of a register see and change -/

theorem regValue_withInputs (c : Config.Params) (r : HostReg) (rest : List HostAction) (s : State) :
    regValue c r { s with inputs := rest } = regValue c r s := by
  cases r <;> rfl

theorem step_read (r : HostReg) (rest : List HostAction) (s : State) :
    step { s with inputs := .read (regOffset r) (regWidth r) :: rest }
      = .next { s with inputs := rest, readData := s.readData ++ [regValue Config.platform r s] } := by
  rw [← regValue_withInputs _ r rest s]
  exact (step_of_inputs rfl).trans (perform_read r _)

theorem step_write {r : HostReg} (hr : r ≠ .cmd) (data : Word64) (rest : List HostAction) (s : State) :
    step { s with inputs := .write (regOffset r) (regWidth r) data :: rest }
      = .next (writeReg r data { s with inputs := rest }) :=
  (step_of_inputs rfl).trans (perform_write hr data _)

theorem writeReg_readOnly {r : HostReg} (h : isOperandReg r = false) (data : Word64) (s : State) :
    writeReg r data s = s := by
  cases r with
  | opa | opb | qv | qmin | qmax | opid | opext | pin => cases h
  | _ => rfl

theorem writeReg_pin (i : Fin 8) (data : Word64) (s : State) :
    writeReg (.pin i) data s = { s with pin := s.pin.set i.val (data.setWidth 8) } := by
  simp [writeReg, Vector.setIfInBounds, Array.setIfInBounds]

/-! ### What a host action leaves of the queue -/

theorem runCommand_next (word : Word32) (s : State) : ∃ t, runCommand word s = .next t ∧ t.inputs = s.inputs := by
  cases hd : decode word with
  | instr i =>
    obtain ⟨t, ht, hc⟩ := exec_completes i s
    exact ⟨t, (runCommand_instr hd s).trans ht, (congrArg State.inputs hc.frame :)⟩
  | illegal why => exact ⟨raise .illegal s, by rw [runCommand, hd], rfl⟩

theorem writeReg_inputs (r : HostReg) (data : Word64) (s : State) : (writeReg r data s).inputs = s.inputs := by
  cases r <;> rfl

/-- A host write of any register answers a next state. -/
theorem perform_write_next (r : HostReg) (data : Word64) (s : State) :
    ∃ t, perform (.write (regOffset r) (regWidth r) data) s = .next t ∧ t.inputs = s.inputs := by
  by_cases hr : r = .cmd
  · subst hr
    rw [perform_write_cmd]
    exact runCommand_next _ s
  · exact ⟨_, perform_write hr data s, writeReg_inputs r data s⟩

/-- A defined host action answers a next state and takes no other action from the queue. -/
theorem perform_of_defined {a : HostAction} (h : definedAction a = true) (s : State) :
    ∃ t, perform a s = .next t ∧ t.inputs = s.inputs := by
  cases a with
  | write offset width data =>
    obtain ⟨r, hr⟩ := Option.isSome_iff_exists.1 h
    obtain ⟨rfl, rfl⟩ := (accessed_eq_some_iff _ _ _).1 hr
    exact perform_write_next r data s
  | read offset width =>
    obtain ⟨r, hr⟩ := Option.isSome_iff_exists.1 h
    obtain ⟨rfl, rfl⟩ := (accessed_eq_some_iff _ _ _).1 hr
    exact ⟨_, perform_read r s, rfl⟩
  | reset => exact ⟨_, rfl, rfl⟩
  | concurrentAgent => cases h

/-! ### The run of defined actions -/

theorem step_of_defined {s : State} (h : s.inputs.all definedAction = true) :
    ∃ t, step s = .next t ∧ t.inputs = s.inputs.tail := by
  cases hi : s.inputs with
  | nil => exact ⟨s, step_idle hi, hi⟩
  | cons a rest =>
    rw [hi, List.all_cons, Bool.and_eq_true] at h
    obtain ⟨t, ht, hrest⟩ := perform_of_defined h.1 { s with inputs := rest }
    exact ⟨t, (step_of_inputs hi).trans ht, hrest⟩

theorem all_defined_tail {as : List HostAction} (h : as.all definedAction = true) : as.tail.all definedAction = true :=
  List.all_eq_true.2 fun x hx => List.all_eq_true.1 h x (List.mem_of_mem_tail hx)

/-- Settles O12, by induction on the number of steps: a step takes one action from the queue, and the rest is still
defined. -/
theorem definedHostActionsNeverStop : Obligations.DefinedHostActionsNeverStop := by
  refine ⟨fun n => ?_, fun s => step_idle⟩
  induction n with
  | zero => exact fun s hs _ => ⟨s, run_zero s, hs, rfl⟩
  | succ n ih =>
    intro s hs hd
    obtain ⟨t, ht, hrest⟩ := step_of_defined hd
    obtain ⟨u, hu, hlegal, hdrop⟩ := ih t (everyStepKeepsStatusLegal s t hs ht) (hrest ▸ all_defined_tail hd)
    exact ⟨u, (run_succ_of_step n ht).trans hu, hlegal, by rw [hdrop, hrest, List.drop_tail]⟩

/-! ### Accesses, reads and writes of the host -/

/-- Settles O15: on the map an access reaches a register, and elsewhere none. -/
theorem hostAccessIsDefinedExactlyOnTheMap : Obligations.HostAccessIsDefinedExactlyOnTheMap := by
  intro s offset width data rest
  refine ⟨fun h => ?_, fun h => ?_, rfl⟩
  · obtain ⟨r, hr⟩ := (mem_hostMap_iff _ _).1 h
    obtain ⟨rfl, rfl⟩ := (accessed_eq_some_iff _ _ _).1 hr
    obtain ⟨t, ht, -⟩ := perform_write_next r data { s with inputs := rest }
    exact ⟨⟨_, step_read r rest s⟩, ⟨t, (step_of_inputs rfl).trans ht⟩⟩
  · have hn := accessed_eq_none_of_not_mem h
    exact ⟨(step_of_inputs rfl).trans (perform_read_undefined hn _),
      (step_of_inputs rfl).trans (perform_write_undefined hn data _)⟩

/-- Settles O16: the number seen at a place is that of the register there, and a 64-bit value is its number. -/
theorem hostReadReturnsTheRegister : Obligations.HostReadReturnsTheRegister := by
  intro s rest offset width value h
  rw [hostView_eq, List.mem_map] at h
  obtain ⟨r, -, hr⟩ := h
  cases hr
  rw [step_read, BitVec.ofNat_toNat, BitVec.setWidth_eq]

/-- Settles O17: each operand register by its own write, the read-only ones together. -/
theorem hostWriteChangesOneOperandRegister : Obligations.HostWriteChangesOneOperandRegister := by
  intro s rest v
  simp only [BitVec.ofNat_toNat]
  refine ⟨step_write (r := .opa) nofun v rest s, step_write (r := .opb) nofun v rest s,
    step_write (r := .qv) nofun v rest s, step_write (r := .qmin) nofun v rest s, step_write (r := .qmax) nofun v rest s,
    step_write (r := .opid) nofun v rest s, step_write (r := .opext) nofun v rest s, fun i => ?_, fun p hp => ?_⟩
  · exact (step_write (r := .pin i) nofun v rest s).trans (congrArg _ (writeReg_pin i v _))
  · rw [readOnlyMap_eq, List.mem_map] at hp
    obtain ⟨r, hr, rfl⟩ := hp
    simp only [List.mem_filter, Bool.and_eq_true, Bool.not_eq_true', decide_eq_true_eq] at hr
    obtain ⟨-, hop, hcmd⟩ := hr
    exact (step_write hcmd v rest s).trans (congrArg _ (writeReg_readOnly hop v _))

/-! ### The legacy codec seen through the mirror (R50, R53, R54) -/

/-- Byte `k` of a value is what ENCB leaves at the `k`-th byte it writes. -/
theorem memWrite_get_written (p : Payload) (a n v k : Nat) (hk : k < n) (h : a + n ≤ 8) :
    (memWrite p a n v)[(⟨a + k, by omega⟩ : Fin 8)] = byteOf v k := by
  rw [memWrite_get, if_pos ⟨Nat.le_add_right a k, Nat.add_lt_add_left hk a⟩, Nat.add_sub_cancel_left]

theorem exec_toMir_mirror (s : State) : ∃ t, exec .toMir s = .next t ∧ t.mirror = mirrorOf s.payload :=
  ⟨_, rfl, finishUnlessZero_mirror _ _⟩

/-- Settles O23: ENCB writes byte k of the value at payload byte a + k, which TOMIR puts in mirror byte 7 - (a + k). -/
theorem legacyBytesStandReversedInTheMirror : Obligations.LegacyBytesStandReversedInTheMirror := by
  intro s nb hb
  obtain ⟨u, hu, hm⟩ := exec_toMir_mirror (finish false false false (writeBytes nb s.opa.toNat s))
  refine ⟨_, u, exec_encb_inBounds hb, hu, fun k hk => ?_⟩
  have hbyte : mirrorByte u.mirror (7 - (s.wcur.toNat + k)) = byteOf s.opa.toNat k := by
    rw [hm]
    exact (mirrorByte_mirrorOf _ ⟨s.wcur.toNat + k, by omega⟩).trans
      (memWrite_get_written s.payload _ nb _ k hk (by omega))
  rw [Claim.field, Claim.field, ← mirrorByte_toNat, hbyte, byteOf_toNat]

end Sys2Proof.Machine
end

section
/-! PROOFS. The command word. A word decodes to a command exactly when it holds it: RSV and OP select the command, and each
field it reads stands at its place. What a word holds depends on no other bit, the encoding of a well-formed command holds
it, and the read bits of a word that holds a command are its encoding. -/

namespace Sys2Proof

/-! ### The fields of a word as numbers -/

theorem FieldUnit.code_inj {u v : FieldUnit} : u.code = v.code ↔ u = v := by
  cases u <;> cases v <;> decide

theorem TargetWidth.code_inj {v w : TargetWidth} : v.code = w.code ↔ v = w := by
  cases v <;> cases w <;> decide

theorem FieldUnit.code_lt (u : FieldUnit) : u.code < 2 := by
  cases u <;> decide

theorem TargetWidth.code_lt (w : TargetWidth) : w.code < 4 := by
  cases w <;> decide

theorem unitField_eq_iff (w : Word32) (u : FieldUnit) : unitField w = u ↔ w.toNat / 2 ^ 5 % 2 = u.code := by
  rw [← FieldUnit.code_inj, unitField_code]

theorem signedField_eq_iff (w : Word32) (sg : Bool) : signedField w = sg ↔ w.toNat / 2 ^ 6 % 2 = sg.toNat := by
  rw [← signedField_toNat, (Bool.injective_iff.2 (by decide) : Function.Injective Bool.toNat).eq_iff]

theorem targetWidthField_eq_iff (w : Word32) (tw : TargetWidth) :
    targetWidthField w = tw ↔ w.toNat / 2 ^ 7 % 4 = tw.code := by
  rw [← TargetWidth.code_inj, targetWidthField_code]

theorem fieldDescriptorFits_iff (start len : Nat) :
    fieldDescriptorFits start len = true ↔ start ≤ 127 ∧ len ≤ 127 := by
  simp [fieldDescriptorFits]

theorem byteCountFits_iff (nb : Nat) : byteCountFits nb = true ↔ nb ≤ 7 :=
  decide_eq_true_iff

/-! ### Which words decode to a command, and which are illegal (R76, R77) -/

/-- The decode procedure of R77: a word decodes to the instruction it holds. -/
theorem decode_eq_instr_iff (w : Word32) (i : Instr) : decode w = .instr i ↔ Claim.isWordOf w i := by
  by_cases hsel : w.toNat / 2 ^ 26 = 0 ∧ w.toNat % 2 ^ 5 = i.opcode
  · obtain ⟨hr, ho⟩ := hsel
    unfold Claim.isWordOf
    rw [decode_of_op hr, and_iff_right hr, and_iff_right ho, show w.toNat % 32 = i.opcode from ho]
    cases i <;>
      simp [Instr.opcode, unitField_eq_iff, signedField_eq_iff, targetWidthField_eq_iff, startField_eq, lenField_eq,
        byteCountField_eq]
  · refine iff_of_false (fun h => ?_) (fun h => hsel ⟨h.1, h.2.1⟩)
    obtain ⟨ho, hr⟩ := decode_opcode h
    exact hsel ⟨hr, ho.symm⟩

theorem decode_illegal_iff_not_instr (w : Word32) :
    (∃ why, decode w = .illegal why) ↔ ¬ ∃ i, decode w = .instr i := by
  cases decode w <;> simp

/-- A word is refused exactly when R76 calls it illegal. -/
theorem decode_illegal_iff (w : Word32) : (∃ why, decode w = .illegal why) ↔ Claim.illegalWord w := by
  rw [decode_illegal_iff_not_instr, decode_legal_iff, Claim.illegalWord]
  omega

/-- Settles O7: both clauses are the decoder's inversion, by the OP number and by the fields. -/
theorem decodeReadsTheFieldsOfTheWord : Obligations.DecodeReadsTheFieldsOfTheWord :=
  ⟨decode_eq_instr_iff, decode_illegal_iff⟩

/-! ### The encoding formula (R82) -/

/-- A field placed above every set bit of a word adds to it. -/
theorem or_field_toNat {x : Word32} {b v k : Nat} (hx : x.toNat = b) (hb : b < 2 ^ k) (hv : v * 2 ^ k < 2 ^ 32) :
    (x ||| BitVec.ofNat 32 v <<< k).toNat = b + v * 2 ^ k := by
  have hvk : (BitVec.ofNat 32 v <<< k).toNat = 2 ^ k * v := by
    rw [BitVec.toNat_shiftLeft, BitVec.toNat_ofNat, Nat.shiftLeft_eq, Nat.mod_mul_mod, Nat.mod_eq_of_lt hv, Nat.mul_comm]
  rw [BitVec.toNat_or, hx, hvk, Nat.or_comm, ← Nat.two_pow_add_eq_or_of_lt hb, Nat.mul_comm, Nat.add_comm]

theorem encodeFields_toNat {op u sg tw start len nb : Nat} (hop : op < 32) (hu : u < 2) (hsg : sg < 2) (htw : tw < 4)
    (hstart : start < 128) (hlen : len < 128) (hnb : nb < 8) :
    (encodeFields op u sg tw start len nb).toNat
      = op + u * 2 ^ 5 + sg * 2 ^ 6 + tw * 2 ^ 7 + start * 2 ^ 9 + len * 2 ^ 16 + nb * 2 ^ 23 := by
  iterate 6 refine or_field_toNat ?_ (by omega) (by omega)
  exact Nat.mod_eq_of_lt (by omega)

/-- Settles O1: the fields stand side by side; the worked words by evaluation. -/
theorem encodingFormulaAndWorkedWords : Obligations.EncodingFormulaAndWorkedWords :=
  ⟨fun _ _ _ _ _ _ _ => encodeFields_toNat, by decide⟩

/-- Settles O2: the decoder evaluated at the sixteen words. -/
theorem writtenWordsDecode : Obligations.WrittenWordsDecode := by
  unfold Obligations.WrittenWordsDecode
  decide

/-! ### The encoding of a command holds it -/

theorem Instr.opcode_lt (i : Instr) : i.opcode < 32 := by
  cases i <;> simp [Instr.opcode]

/-- Each field read from the encoding formula is what was put there. -/
theorem encodeFields_fields {op u sg tw start len nb : Nat} (hop : op < 32) (hu : u < 2) (hsg : sg < 2) (htw : tw < 4)
    (hstart : start < 128) (hlen : len < 128) (hnb : nb < 8) {w : Word32}
    (hw : encodeFields op u sg tw start len nb = w) :
    w.toNat / 2 ^ 26 = 0 ∧ w.toNat % 2 ^ 5 = op ∧ w.toNat / 2 ^ 5 % 2 = u ∧ w.toNat / 2 ^ 6 % 2 = sg
      ∧ w.toNat / 2 ^ 7 % 2 ^ 2 = tw ∧ w.toNat / 2 ^ 9 % 2 ^ 7 = start ∧ w.toNat / 2 ^ 16 % 2 ^ 7 = len
      ∧ w.toNat / 2 ^ 23 % 2 ^ 3 = nb := by
  rw [← hw, encodeFields_toNat hop hu hsg htw hstart hlen hnb]
  omega

/-- The encoding of a well-formed instruction has each operand at its place. -/
theorem isWordOf_encode {i : Instr} (h : i.wf = true) : Claim.isWordOf (encode i) i := by
  have hop := i.opcode_lt
  cases i with
  | enc u sg a b =>
    obtain ⟨ha, hb⟩ := (fieldDescriptorFits_iff a b).1 h
    obtain ⟨hr, ho, hu, hsg, -, hst, hln, -⟩ := encodeFields_fields hop u.code_lt sg.toNat_lt (Nat.succ_pos _)
      (Nat.lt_succ_of_le ha) (Nat.lt_succ_of_le hb) (Nat.succ_pos _) rfl
    exact ⟨hr, ho, hu, hsg, hst, hln⟩
  | dec u tw a b =>
    obtain ⟨ha, hb⟩ := (fieldDescriptorFits_iff a b).1 h
    obtain ⟨hr, ho, hu, -, htw, hst, hln, -⟩ := encodeFields_fields hop u.code_lt (Nat.succ_pos _) tw.code_lt
      (Nat.lt_succ_of_le ha) (Nat.lt_succ_of_le hb) (Nat.succ_pos _) rfl
    exact ⟨hr, ho, hu, htw, hst, hln⟩
  | qenc u a b | qdec u a b =>
    obtain ⟨ha, hb⟩ := (fieldDescriptorFits_iff a b).1 h
    obtain ⟨hr, ho, hu, -, -, hst, hln, -⟩ := encodeFields_fields hop u.code_lt (Nat.succ_pos _) (Nat.succ_pos _)
      (Nat.lt_succ_of_le ha) (Nat.lt_succ_of_le hb) (Nat.succ_pos _) rfl
    exact ⟨hr, ho, hu, hst, hln⟩
  | encb n | decb n | qencb n | qdecb n =>
    have hn := (byteCountFits_iff n).1 h
    obtain ⟨hr, ho, -, -, -, -, -, hnb⟩ := encodeFields_fields hop (Nat.succ_pos _) (Nat.succ_pos _) (Nat.succ_pos _)
      (Nat.succ_pos _) (Nat.succ_pos _) (Nat.lt_succ_of_le hn) rfl
    exact ⟨hr, ho, hnb⟩
  | _ =>
    obtain ⟨hr, ho, -⟩ := encodeFields_fields hop (Nat.succ_pos _) (Nat.succ_pos _) (Nat.succ_pos _) (Nat.succ_pos _)
      (Nat.succ_pos _) (Nat.succ_pos _) rfl
    exact ⟨hr, ho, trivial⟩

theorem decode_encode {i : Instr} (h : i.wf = true) : decode (encode i) = .instr i :=
  (decode_eq_instr_iff _ _).2 (isWordOf_encode h)

/-- Settles O3: the encoding of a well-formed instruction holds it, and the decoder answers what a word holds. -/
theorem decodeOfEncodeIsIdentity : Obligations.DecodeOfEncodeIsIdentity := fun _ => decode_encode

/-! ### The bits a command reads (R74) -/

/-- A field that a mask covers is read the same from the masked word. -/
theorem field_and (w : Word32) {m : Word32} (k n : Nat) (hm : m.toNat / 2 ^ k % 2 ^ n = 2 ^ n - 1) :
    (w &&& m).toNat / 2 ^ k % 2 ^ n = w.toNat / 2 ^ k % 2 ^ n := by
  rw [BitVec.toNat_and, Nat.and_div_two_pow, Nat.and_mod_two_pow, hm, Nat.and_two_pow_sub_one_eq_mod, Nat.mod_mod]

theorem field_congr {w w' m : Word32} (h : w &&& m = w' &&& m) (k n : Nat) (hm : m.toNat / 2 ^ k % 2 ^ n = 2 ^ n - 1) :
    w'.toNat / 2 ^ k % 2 ^ n = w.toNat / 2 ^ k % 2 ^ n := by
  rw [← field_and w k n hm, h, field_and w' k n hm]

/-- A field left at its place in a word is the word under the field's mask. -/
theorem ofNat_field_shiftLeft (w : Word32) (k n : Nat) :
    BitVec.ofNat 32 (w.toNat / 2 ^ k % 2 ^ n) <<< k = w &&& BitVec.ofNat 32 (2 ^ n - 1) <<< k := by
  apply BitVec.eq_of_getLsbD_eq
  intro j hj
  rw [BitVec.getLsbD_and, BitVec.getLsbD_shiftLeft, BitVec.getLsbD_shiftLeft, BitVec.getLsbD_ofNat, BitVec.getLsbD_ofNat,
    Nat.testBit_mod_two_pow, Nat.testBit_two_pow_sub_one, ← Nat.shiftRight_eq_div_pow, Nat.testBit_shiftRight]
  by_cases hk : j < k
  · simp [hk]
  · rw [Nat.add_sub_cancel' (Nat.le_of_not_lt hk)]
    simp [hk, hj, BitVec.getLsbD, Bool.and_comm, show j - k < 32 by omega]

/-- The selecting mask of R75 reads RSV and OP. -/
theorem selected_iff (w : Word32) {op : Nat} (hop : op < 32) :
    w &&& 0xFC00001F#32 = BitVec.ofNat 32 op ↔ w.toNat / 2 ^ 26 = 0 ∧ w.toNat % 2 ^ 5 = op := by
  constructor
  · intro h
    have hr := field_and w (m := 0xFC00001F#32) 26 6 rfl
    have ho := field_and w (m := 0xFC00001F#32) 0 5 rfl
    rw [h, BitVec.toNat_ofNat] at hr ho
    omega
  · rintro ⟨hr, ho⟩
    calc w &&& 0xFC00001F#32
        = w &&& BitVec.ofNat 32 (2 ^ 5 - 1) <<< 0 ||| w &&& BitVec.ofNat 32 (2 ^ 6 - 1) <<< 26 := by
          rw [← BitVec.and_or_distrib_left]
          rfl
      _ = BitVec.ofNat 32 op := by
          rw [← ofNat_field_shiftLeft, ← ofNat_field_shiftLeft, hr, pow_zero, Nat.div_one, ho]
          simp

/-- What a word holds depends on its read bits alone. -/
theorem isWordOf_congr {w w' : Word32} {i : Instr}
    (h : w &&& Claim.wordBitsRead i = w' &&& Claim.wordBitsRead i) (hw : Claim.isWordOf w i) : Claim.isWordOf w' i := by
  obtain ⟨hr, ho, hf⟩ := hw
  have hc := field_congr h
  have hop : w'.toNat / 2 ^ 0 % 2 ^ 5 = w.toNat / 2 ^ 0 % 2 ^ 5 := hc 0 5 (by cases i <;> simp [Claim.wordBitsRead])
  have hrsv : w'.toNat / 2 ^ 26 % 2 ^ 6 = w.toNat / 2 ^ 26 % 2 ^ 6 := hc 26 6 (by cases i <;> simp [Claim.wordBitsRead])
  refine ⟨by omega, by omega, ?_⟩
  cases i <;> dsimp only [Claim.wordBitsRead] at hc
  case enc =>
    obtain ⟨hu, hsg, hst, hln⟩ := hf
    exact ⟨(hc 5 1 rfl).trans hu, (hc 6 1 rfl).trans hsg, (hc 9 7 rfl).trans hst, (hc 16 7 rfl).trans hln⟩
  case dec =>
    obtain ⟨hu, htw, hst, hln⟩ := hf
    exact ⟨(hc 5 1 rfl).trans hu, (hc 7 2 rfl).trans htw, (hc 9 7 rfl).trans hst, (hc 16 7 rfl).trans hln⟩
  case qenc | qdec =>
    obtain ⟨hu, hst, hln⟩ := hf
    exact ⟨(hc 5 1 rfl).trans hu, (hc 9 7 rfl).trans hst, (hc 16 7 rfl).trans hln⟩
  case encb | decb | qencb | qdecb => exact (hc 23 3 rfl).trans hf
  all_goals trivial

/-- Settles O5: the decoder answers what a word holds, and that rests on the read bits alone. -/
theorem ignoredFieldsDoNotMatter : Obligations.IgnoredFieldsDoNotMatter := by
  intro w w' i hd h
  rw [decode_eq_instr_iff] at hd ⊢
  exact isWordOf_congr h hd

/-! ### A word that holds a command reencodes to its read bits -/

theorem wf_of_isWordOf {w : Word32} {i : Instr} (h : Claim.isWordOf w i) : i.wf = true := by
  obtain ⟨-, -, hf⟩ := h
  cases i with
  | enc | dec =>
    obtain ⟨-, -, hst, hln⟩ := hf
    exact (fieldDescriptorFits_iff _ _).2 (by omega)
  | qenc | qdec =>
    obtain ⟨-, hst, hln⟩ := hf
    exact (fieldDescriptorFits_iff _ _).2 (by omega)
  | encb | decb | qencb | qdecb =>
    have hnb := Nat.mod_lt (w.toNat / 2 ^ 23) (Nat.two_pow_pos 3)
    exact (byteCountFits_iff _).2 (hf ▸ Nat.le_of_lt_succ hnb)
  | _ => rfl

/-- A field the word holds, at its place. -/
theorem placed_of_field {w : Word32} {k v : Nat} (n : Nat) (h : w.toNat / 2 ^ k % 2 ^ n = v) :
    BitVec.ofNat 32 v <<< k = w &&& BitVec.ofNat 32 (2 ^ n - 1) <<< k :=
  h ▸ ofNat_field_shiftLeft w k n

/-- A field the command does not read: 0 at its place, and no bit of the word. -/
theorem placed_zero (w : Word32) (k : Nat) : BitVec.ofNat 32 0 <<< k = w &&& 0 := by
  simp

/-- When every part of the encoding formula is the word under a mask, the whole is. -/
theorem encodeFields_eq_and {w : Word32} {op u sg tw start len nb : Nat} {mop mu msg mtw mstart mlen mnb : Word32}
    (hop : w &&& mop = BitVec.ofNat 32 op) (hu : BitVec.ofNat 32 u <<< 5 = w &&& mu)
    (hsg : BitVec.ofNat 32 sg <<< 6 = w &&& msg) (htw : BitVec.ofNat 32 tw <<< 7 = w &&& mtw)
    (hstart : BitVec.ofNat 32 start <<< 9 = w &&& mstart) (hlen : BitVec.ofNat 32 len <<< 16 = w &&& mlen)
    (hnb : BitVec.ofNat 32 nb <<< 23 = w &&& mnb) :
    encodeFields op u sg tw start len nb = w &&& (mop ||| mu ||| msg ||| mtw ||| mstart ||| mlen ||| mnb) := by
  simp only [encodeFields, ← hop, hu, hsg, htw, hstart, hlen, hnb, BitVec.and_or_distrib_left]

theorem encode_of_isWordOf {w : Word32} {i : Instr} (h : Claim.isWordOf w i) : encode i = w &&& Claim.wordBitsRead i := by
  obtain ⟨hr, ho, hf⟩ := h
  have hsel := (selected_iff w i.opcode_lt).2 ⟨hr, ho⟩
  have unread := placed_zero w
  cases i with
  | enc =>
    obtain ⟨hu, hsg, hst, hln⟩ := hf
    exact encodeFields_eq_and hsel (placed_of_field 1 hu) (placed_of_field 1 hsg) (unread 7) (placed_of_field 7 hst)
      (placed_of_field 7 hln) (unread 23)
  | dec =>
    obtain ⟨hu, htw, hst, hln⟩ := hf
    exact encodeFields_eq_and hsel (placed_of_field 1 hu) (unread 6) (placed_of_field 2 htw) (placed_of_field 7 hst)
      (placed_of_field 7 hln) (unread 23)
  | qenc | qdec =>
    obtain ⟨hu, hst, hln⟩ := hf
    exact encodeFields_eq_and hsel (placed_of_field 1 hu) (unread 6) (unread 7) (placed_of_field 7 hst)
      (placed_of_field 7 hln) (unread 23)
  | encb | decb | qencb | qdecb =>
    exact encodeFields_eq_and hsel (unread 5) (unread 6) (unread 7) (unread 9) (unread 16) (placed_of_field 3 hf)
  | _ => exact encodeFields_eq_and hsel (unread 5) (unread 6) (unread 7) (unread 9) (unread 16) (unread 23)

/-- Settles O4: a decoded word holds its command, which is then well formed and encoded by the read bits. -/
theorem decodedWordReencodesToItsReadBits : Obligations.DecodedWordReencodesToItsReadBits := by
  intro w i hd
  have h := (decode_eq_instr_iff w i).1 hd
  exact ⟨wf_of_isWordOf h, encode_of_isWordOf h⟩

/-- Settles O6: the mask reads RSV and OP, and those decide whether a word decodes and to which opcode. -/
theorem selectingMaskPicksTheCommand : Obligations.SelectingMaskPicksTheCommand := by
  refine ⟨fun w i hd => ?_, fun w n h1 h15 hm => ?_, by simp [Instr.opcode]⟩
  · obtain ⟨ho, hr⟩ := decode_opcode hd
    exact (selected_iff w i.opcode_lt).2 ⟨hr, ho.symm⟩
  · obtain ⟨hr, ho⟩ := (selected_iff w (by omega)).1 hm
    obtain ⟨i, hi⟩ := (decode_legal_iff w).2 ⟨hr, by omega, by omega⟩
    exact ⟨i, hi, (decode_opcode hi).1.trans ho⟩

end Sys2Proof
end

section
/-! PROOFS. The command written to CMD and the assembler. A word that is not illegal runs its command; what the assembler
accepts has its operands in range and can be encoded, so that a program's command words run the commands they stand for. -/

namespace Sys2Proof.Machine

/-! ### The write of CMD (R76) -/

theorem runCommand_illegal {w : Word32} (h : Claim.illegalWord w) (s : State) :
    runCommand w s = .next (raise .illegal s) := by
  obtain ⟨why, hd⟩ := (decode_illegal_iff w).2 h
  rw [runCommand, hd]

/-- Settles O8: the step writes CMD, and the word either is illegal or decodes. -/
theorem illegalWordWritesOnlyStatus : Obligations.IllegalWordWritesOnlyStatus := by
  intro s data rest hs
  rw [step_command s data rest hs]
  constructor
  · intro h
    rw [runCommand_illegal h, raise_eq, statusWord_code]
    rfl
  · intro h
    rw [← decode_illegal_iff, decode_illegal_iff_not_instr, not_not] at h
    obtain ⟨i, hi⟩ := h
    exact ⟨i, hi, runCommand_instr hi _⟩

/-! ### The assembler (R79) -/

theorem withField_of_fits {allowed x : List Suffix} (f : List Suffix → Nat → Nat → Instr) (m : Mnemonic) {a b : Nat}
    (hx : suffixesFit allowed x = true ∧ oneWidth x = true) (ha : a ≤ 127) (hb : b ≤ 127) :
    withField allowed f ⟨m, x, [a, b]⟩ = some (f x a b) := by
  obtain ⟨hs, hw⟩ := hx
  simp only [withField, hs, hw, (fieldDescriptorFits_iff a b).2 ⟨ha, hb⟩, Bool.and_self, if_true]

theorem withCount_of_fits (f : Nat → Instr) (m : Mnemonic) {n : Nat} (hn : n ≤ 7) :
    withCount f ⟨m, [], [n]⟩ = some (f n) :=
  if_pos ((byteCountFits_iff n).2 hn)

/-- The operands a line may have, none, a byte count or a field descriptor, in their ranges (R79). -/
def operandsFit : List Nat → Prop
  | [] => True
  | [n] => n ≤ 7
  | [a, b] => a ≤ 127 ∧ b ≤ 127
  | _ => False

theorem bare_eq_some {i j : Instr} {l : AsmLine} (h : bare i l = some j) : l.operands = [] ∧ j = i := by
  unfold bare at h
  split at h
  · exact ⟨‹_›, (Option.some.inj h).symm⟩
  · cases h

theorem withCount_eq_some {f : Nat → Instr} {l : AsmLine} {i : Instr} (h : withCount f l = some i) :
    ∃ n, l.operands = [n] ∧ byteCountFits n = true ∧ i = f n := by
  unfold withCount at h
  split at h
  · rw [Option.ite_none_right_eq_some] at h
    exact ⟨_, ‹_›, h.1, (Option.some.inj h.2).symm⟩
  · cases h

theorem withField_eq_some {allowed : List Suffix} {f : List Suffix → Nat → Nat → Instr} {l : AsmLine} {i : Instr}
    (h : withField allowed f l = some i) :
    ∃ a b, l.operands = [a, b] ∧ fieldDescriptorFits a b = true ∧ i = f l.suffixes a b := by
  unfold withField at h
  split at h
  · rw [Option.ite_none_right_eq_some, Bool.and_eq_true] at h
    obtain ⟨⟨-, hfit⟩, hi⟩ := h
    exact ⟨_, _, ‹_›, hfit, (Option.some.inj hi).symm⟩
  · cases h

/-- What the assembler accepts has its operands in range, and a word can hold it. -/
theorem assemble_sound {l : AsmLine} {i : Instr} (h : assemble l = some i) :
    operandsFit l.operands ∧ i.wf = true := by
  obtain ⟨m, x, operands⟩ := l
  cases m with
  | new | load | toMir | fromMir | getErr | setErr | hdr =>
    obtain ⟨ho, rfl⟩ := bare_eq_some h
    exact ⟨ho ▸ trivial, rfl⟩
  | enc | dec | qenc | qdec =>
    simp only [assemble] at h
    obtain ⟨a, b, ho, hfit, rfl⟩ := withField_eq_some h
    exact ⟨ho ▸ (fieldDescriptorFits_iff a b).1 hfit, hfit⟩
  | encb | decb | qencb | qdecb =>
    obtain ⟨n, ho, hfit, rfl⟩ := withCount_eq_some h
    exact ⟨ho ▸ (byteCountFits_iff n).1 hfit, hfit⟩

theorem assemble_eq_none {l : AsmLine} (h : ¬ operandsFit l.operands) : assemble l = none :=
  Option.eq_none_iff_forall_ne_some.2 fun _ hi => h (assemble_sound hi).1

/-! Each suffix list of R79 is accepted by its mnemonic and sets the U, SG and TW listed with it. -/

theorem encSuffixes_spec : ∀ p ∈ Claim.encSuffixes, (suffixesFit [.b, .s] p.1 = true ∧ oneWidth p.1 = true)
    ∧ unitOf p.1 = p.2.1 ∧ p.1.contains .s = p.2.2 := by
  decide

theorem decSuffixes_spec : ∀ p ∈ Claim.decSuffixes,
    (suffixesFit [.b, .w8, .w16, .w32, .w64] p.1 = true ∧ oneWidth p.1 = true)
    ∧ unitOf p.1 = p.2.1 ∧ widthOf p.1 = p.2.2 := by
  decide

theorem quantizerSuffixes_spec : ∀ p ∈ Claim.quantizerSuffixes,
    (suffixesFit [.b] p.1 = true ∧ oneWidth p.1 = true) ∧ unitOf p.1 = p.2 := by
  decide

theorem assemble_enc {p : List Suffix × FieldUnit × Bool} (hp : p ∈ Claim.encSuffixes) {a b : Nat} (ha : a ≤ 127)
    (hb : b ≤ 127) : assemble ⟨.enc, p.1, [a, b]⟩ = some (.enc p.2.1 p.2.2 a b) := by
  obtain ⟨hx, hu, hsg⟩ := encSuffixes_spec p hp
  rw [← hu, ← hsg]
  simp only [assemble, withField_of_fits _ _ hx ha hb]

theorem assemble_dec {p : List Suffix × FieldUnit × TargetWidth} (hp : p ∈ Claim.decSuffixes) {a b : Nat}
    (ha : a ≤ 127) (hb : b ≤ 127) : assemble ⟨.dec, p.1, [a, b]⟩ = some (.dec p.2.1 p.2.2 a b) := by
  obtain ⟨hx, hu, htw⟩ := decSuffixes_spec p hp
  rw [← hu, ← htw]
  simp only [assemble, withField_of_fits _ _ hx ha hb]

theorem assemble_quantizer {p : List Suffix × FieldUnit} (hp : p ∈ Claim.quantizerSuffixes) {a b : Nat} (ha : a ≤ 127)
    (hb : b ≤ 127) : assemble ⟨.qenc, p.1, [a, b]⟩ = some (.qenc p.2 a b)
      ∧ assemble ⟨.qdec, p.1, [a, b]⟩ = some (.qdec p.2 a b) := by
  obtain ⟨hx, hu⟩ := quantizerSuffixes_spec p hp
  rw [← hu]
  simp only [assemble, withField_of_fits _ _ hx ha hb, and_self]

/-- Settles O58: each suffix list by evaluation, and both refusals from what the assembler accepts. -/
theorem assembledCommandsAreEncodable : Obligations.AssembledCommandsAreEncodable := by
  refine ⟨by decide, fun a b ha hb => ⟨fun p hp => assemble_enc hp ha hb, fun p hp => assemble_dec hp ha hb,
    fun p hp => assemble_quantizer hp ha hb⟩, fun n hn => ?_, fun l i h => (assemble_sound h).2,
    fun m x n hn => assemble_eq_none (Nat.not_le.2 hn), fun m x a b hab => assemble_eq_none ?_⟩
  · simp only [assemble, withCount_of_fits _ _ hn, and_self]
  · rintro ⟨ha, hb⟩
    omega

/-! ### The pseudo-instructions (R81) -/

theorem lineActions_command {l : AsmLine} {i : Instr} (h : assemble l = some i) :
    lineActions (.command l) = some [commandAction i] := by
  rw [lineActions, h, Option.map_some]

theorem lineActions_encByte {i : Nat} (hi : i ≤ 7) :
    lineActions (.encByte i) = some [commandAction (.enc .bytes false (7 - i) 1)] :=
  if_pos hi

theorem lineActions_decByte {i : Nat} (hi : i ≤ 7) :
    lineActions (.decByte i) = some [commandAction (.dec .bytes .w8 (7 - i) 1)] :=
  if_pos hi

theorem encByte_wf (i : Nat) : (Instr.enc .bytes false (7 - i) 1).wf = true :=
  (fieldDescriptorFits_iff _ _).2 (by omega)

/-- The command of ENCBYTE always passes the bounds test: its byte lies in the mirror. -/
theorem exec_encByte (i : Nat) (s : State) :
    exec (.enc .bytes false (7 - i) 1) s = .next (encField Config.platform false ((7 - i) * 8) 8 s) :=
  exec_enc_inBounds false s (by rw [toBits_bytes, toBits_bytes]; omega)

theorem encField_mirror (c : Config.Params) (signed : Bool) (st ln : Nat) (s : State) :
    (encField c signed st ln s).mirror = overlay s.mirror s.opa st :=
  rfl

/-- Settles O60: the command lines assemble to the commands of the expansions, and ENCBYTE's merges at a byte position. -/
theorem pseudoInstructionsExpand : Obligations.PseudoInstructionsExpand := by
  refine ⟨fun i hi => ?_, rfl, rfl, fun _ => rfl, fun _ _ => rfl, fun _ _ => rfl, fun _ => rfl⟩
  have hstart : 7 - i ≤ 127 := by omega
  have henc := assemble_enc (p := ([.b], .bytes, false)) (by decide) hstart (b := 1) (by decide)
  have hdec := assemble_dec (p := ([.b, .w8], .bytes, .w8)) (by decide) hstart (b := 1) (by decide)
  refine ⟨(lineActions_encByte hi).trans (lineActions_command henc).symm,
    (lineActions_decByte hi).trans (lineActions_command hdec).symm, lineActions_encByte hi,
    fun s => ⟨_, exec_encByte i s, ?_⟩⟩
  rw [encField_mirror, overlay, Nat.mul_comm]

/-! ### ENCBYTE and SYNC.M2B as a program -/

/-- The step whose host action writes a well-formed command's word to CMD runs that command. -/
theorem step_commandAction {i : Instr} (hwf : i.wf = true) {rest : List HostAction} {s : State}
    (h : s.inputs = commandAction i :: rest) : step s = exec i { s with inputs := rest } := by
  rw [step_command s _ rest h, BitVec.setWidth_setWidth_of_le _ (by decide), BitVec.setWidth_eq]
  exact runCommand_instr (decode_encode hwf) _

theorem step_encByte {i : Nat} {rest : List HostAction} {s : State}
    (h : s.inputs = commandAction (.enc .bytes false (7 - i) 1) :: rest) :
    step s = .next (encField Config.platform false ((7 - i) * 8) 8 { s with inputs := rest }) :=
  (step_commandAction (encByte_wf i) h).trans (exec_encByte i _)

theorem step_fromMir {rest : List HostAction} {s : State} (h : s.inputs = commandAction .fromMir :: rest) :
    step s = .next (finish false false false { s with inputs := rest, payload := payloadOf s.mirror }) :=
  step_commandAction rfl h

/-- A byte merged into a zero mirror at one byte position stands there, and every other byte stays 0 (R50, R123). -/
theorem mirrorByte_overlay_zero {v : Word64} (hv : v.toNat < 2 ^ 8) (a : Nat) {b : Nat} (hb : b < 8) :
    mirrorByte (overlay 0 v (a * 8)) b = if a = b then v.setWidth 8 else 0 := by
  apply BitVec.eq_of_getLsbD_eq
  intro j hj
  rw [mirrorByte, BitVec.getLsbD_extractLsb', overlay_getLsbD _ _ _ _ (by omega)]
  rcases Nat.lt_trichotomy a b with h | rfl | h
  · have hz : v.getLsbD (8 * b + j - a * 8) = false :=
      Nat.testBit_lt_two_pow (lt_of_lt_of_le hv (Nat.pow_le_pow_right Nat.two_pos (by omega)))
    simp [hz, Nat.ne_of_lt h]
  · have hle : a * 8 ≤ 8 * a + j := by omega
    simp [hj, hle, show 8 * a + j - a * 8 = j by omega]
  · have hlt : 8 * b + j < a * 8 := by omega
    simp [Nat.not_le.2 hlt, Nat.ne_of_gt h]

/-- The byte ENCBYTE i merges into a zero mirror is the payload byte i of the mirror's conversion (R50, R52). -/
theorem payloadOf_overlay_zero {v : Word64} (hv : v.toNat < 2 ^ 8) (i k : Fin 8) :
    (payloadOf (overlay 0 v ((7 - i.val) * 8)))[k].toNat = if k = i then v.toNat else 0 := by
  rw [payloadOf_get, mirrorByte_overlay_zero hv _ (by omega)]
  by_cases h : k = i
  · rw [h, if_pos rfl, if_pos rfl, BitVec.toNat_setWidth, Nat.mod_eq_of_lt hv]
  · rw [if_neg h, if_neg (by omega)]
    rfl

/-- Settles O59: each of the two steps runs a command; the second converts the mirror the first has merged the byte into. -/
theorem encByteReachesPayloadByte : Obligations.EncByteReachesPayloadByte := by
  intro s i hm hv
  have hprog : programActions [.encByte i.val, .syncM2B]
      = some [commandAction (.enc .bytes false (7 - i.val) 1), commandAction .fromMir] := by
    rw [programActions, lineActions_encByte (by omega)]
    rfl
  refine ⟨_, hprog, _, (run_succ_of_step 1 (step_encByte rfl)).trans (run_succ_of_step 0 (step_fromMir rfl)), rfl, rfl,
    fun k => ?_⟩
  rw [finish_payload, encField_mirror, hm]
  exact payloadOf_overlay_zero hv i k

end Sys2Proof.Machine
end

section
/-! PROOFS. The frame store and the bit mirror converter. Each of the four commands is one record update; the two
conversions are inverse, so that NEW, TOMIR and FROMMIR leave the payload and the mirror in agreement. -/

namespace Sys2Proof.Machine

/-! ### The words of the commands without fields (R74, R75) -/

/-- A command of which only RSV and OP are read is held by every word with a zero RSV and its opcode. -/
theorem encodedExactlyAs_opcode {i : Instr} (h : Claim.wordBitsRead i = 0xFC00001F#32) :
    Claim.encodedExactlyAs i i.opcode := by
  intro w
  rw [decode_eq_instr_iff]
  cases i with
  | enc | dec | encb | decb | qenc | qdec | qencb | qdecb => simp [Claim.wordBitsRead] at h
  | _ => exact ⟨fun ⟨hr, ho, _⟩ => ⟨ho, hr⟩, fun ⟨ho, hr⟩ => ⟨hr, ho, trivial⟩⟩

/-! ### The commands as record updates (R100 to R103) -/

theorem exec_new (s : State) : exec .new s = .next { s with
    id := s.opid, ext := s.opext, payload := Payload.zero, mirror := 0, wcur := 0, rcur := 0, status := 0x00000000#32 } :=
  rfl

theorem exec_load (s : State) : exec .load s = .next { s with
    id := s.opid, ext := s.opext, payload := s.pin, mirror := Config.loadMirror s.loads, wcur := 0, rcur := 0,
    status := 0x00000000#32, loads := s.loads + 1 } :=
  rfl

theorem exec_toMir (s : State) : exec .toMir s = .next { s with
    mirror := mirrorOf s.payload, status := if mirrorOf s.payload = 0 then 0x00000003#32 else 0x00000000#32 } := by
  simp only [exec, execToMir, finishUnlessZero_eq, decide_eq_true_eq]

theorem exec_fromMir (s : State) : exec .fromMir s = .next { s with
    payload := payloadOf s.mirror, status := 0x00000000#32 } :=
  rfl

/-! ### The mirror of a payload as a number (R50, R51) -/

theorem mirrorOf_toNat_eq_sum (p : Payload) :
    (mirrorOf p).toNat = ∑ i : Fin 8, p[i].toNat * 2 ^ (8 * (7 - i.val)) := by
  rw [mirrorOf_toNat, Fin.sum_univ_eight]
  simp

theorem mirrorOf_eq_zero {p : Payload} (h : ∀ i : Fin 8, p[i] = 0) : mirrorOf p = 0 := by
  apply BitVec.eq_of_toNat_eq
  rw [mirrorOf_toNat_eq_sum]
  exact Finset.sum_eq_zero fun i _ => by rw [h i]; exact Nat.zero_mul _

/-! ### The obligations -/

/-- Settles O18: the next state by the meaning of NEW, and the mirror of a zeroed payload is 0. -/
theorem newConstructsZeroedFrame : Obligations.NewConstructsZeroedFrame := by
  refine ⟨exec_new, fun s t h => ?_, encodedExactlyAs_opcode (i := .new) rfl⟩
  cases (exec_new s).symm.trans h
  exact (mirrorOf_eq_zero payloadZero_get).symm

/-- Settles O19: TOMIR reads the payload LOAD has copied from PIN and not the mirror LOAD has drawn. -/
theorem loadCopiesPinAndDrawsTheMirror : Obligations.LoadCopiesPinAndDrawsTheMirror := by
  refine ⟨fun s => ⟨_, exec_load s, rfl, ⟨_, exec_toMir _, rfl⟩, fun hz => ?_⟩,
    encodedExactlyAs_opcode (i := .load) rfl⟩
  have hm : mirrorOf s.pin = 0 := mirrorOf_eq_zero hz
  rw [exec_toMir, hm]
  rfl

/-- Settles O20: the mirror of the payload as a sum. -/
theorem toMirRebuildsTheMirror : Obligations.ToMirRebuildsTheMirror :=
  ⟨fun s => ⟨_, exec_toMir s, mirrorOf_toNat_eq_sum s.payload, rfl, rfl, rfl⟩,
    encodedExactlyAs_opcode (i := .toMir) rfl⟩

/-- Settles O21: payload byte i is mirror byte 7 - i, and the mirror of the payload of a mirror is that mirror. -/
theorem fromMirRebuildsThePayload : Obligations.FromMirRebuildsThePayload := by
  refine ⟨fun s => ⟨_, exec_fromMir s, fun i => ?_, rfl, (mirrorOf_payloadOf s.mirror).symm, rfl⟩,
    encodedExactlyAs_opcode (i := .fromMir) rfl⟩
  rw [payloadOf_get, mirrorByte_toNat, Claim.field]

/-- Settles O22: the two conversions are inverse to each other. -/
theorem conversionsAreInverse : Obligations.ConversionsAreInverse := fun s =>
  ⟨⟨_, _, exec_fromMir s, exec_toMir _, mirrorOf_payloadOf s.mirror, rfl⟩,
    ⟨_, _, exec_toMir s, exec_fromMir _, payloadOf_mirrorOf s.payload, (mirrorOf_payloadOf _).symm⟩⟩

end Sys2Proof.Machine
end

section
/-! PROOFS. The field codec. The claims count a field in bits and read it as a number as the model does, so that each
outcome of ENC, DEC, ENCB and DECB is one equation of exec and one fact about the merge, the extraction or the payload
bytes. -/

namespace Sys2Proof.Machine

/-! ### The terms of the claims in the terms of the model -/

theorem bitCount_eq_toBits (unit : FieldUnit) (n : Nat) : Claim.bitCount unit n = toBits unit n := by
  cases unit with
  | bits => rfl
  | bytes => exact Nat.mul_comm 8 n

theorem field_eq_extractField (m : Word64) (s l : Nat) : Claim.field m s l = (extractField m s l).toNat :=
  (extractField_toNat m s l).symm

theorem field_eq_zero_iff (m : Word64) (s l : Nat) : Claim.field m s l = 0 ↔ extractField m s l = 0 := by
  rw [field_eq_extractField]
  exact (BitVec.toNat_eq (y := 0)).symm

theorem overlaps_eq_field (m : Word64) (s l : Nat) : overlaps m s l = decide (Claim.field m s l ≠ 0) :=
  overlaps_eq m s l

/-- A word that decodes to a command has a zero RSV and the command's opcode. -/
theorem encodedAs_opcode (i : Instr) : Claim.encodedAs i i.opcode := by
  intro w h
  obtain ⟨ho, hr⟩ := decode_opcode h
  exact ⟨ho.symm, hr⟩

/-! ### ENC and DEC over the mirror (R125 to R129) -/

/-- The events of an ENC: the signed-value warning before the overlap warning, each only when DIAG_ACTIVE
(R125, R227). -/
theorem encField_diag (c : Config.Params) (signed : Bool) (st ln : Nat) (s : State) :
    (encField c signed st ln s).diag = s.diag ++ (if c.diagActive then
      (if signed then [.signed] else []) ++ (if Claim.field s.mirror st ln ≠ 0 then [.overlap] else []) else []) := by
  rw [encField, finish_diag, emitIf_diag, emitIf_diag, List.append_assoc, overlaps_eq_field]
  cases c.diagActive <;> simp

/-- The STATUS of an ENC that passed the bounds test: OK with the two warnings as computed (R125). -/
theorem encField_status_toNat (c : Config.Params) (signed : Bool) (st ln : Nat) (s : State) :
    (encField c signed st ln s).status.toNat
      = (if signed then 2 ^ 16 else 0) + (if Claim.field s.mirror st ln ≠ 0 then 2 ^ 17 else 0) := by
  rw [encField, finish_status, statusWord_ok_toNat, overlaps_eq_field]
  simp

/-- Settles O26: the bounds test comes before every write, so that both commands end in BOUNDS alone. -/
theorem boundsNeverMutate : Obligations.BoundsNeverMutate := by
  intro unit signed tw start len s hb
  rw [bitCount_eq_toBits, bitCount_eq_toBits] at hb
  exact ⟨exec_enc_outOfBounds signed s hb, exec_dec_outOfBounds tw s hb⟩

/-- Settles O24: the next state of each outcome, and bit by bit what the merge of the operand makes of the mirror. -/
theorem encOverlaysTheOperand : Obligations.EncOverlaysTheOperand := by
  intro unit signed start len s
  rw [bitCount_eq_toBits, bitCount_eq_toBits]
  refine ⟨exec_enc_outOfBounds signed s, fun hb => ⟨_, exec_enc_inBounds signed s hb, fun j hj => ?_,
    encField_status_toNat _ _ _ _ s, encField_diag _ _ _ _ s, rfl⟩, encodedAs_opcode (.enc unit signed start len)⟩
  rw [encField_mirror]
  exact overlay_getLsbD _ _ _ _ hj

/-- Settles O25: the cast takes the field modulo 2^w, and the zero test is on the field before the cast. -/
theorem decReadsTheField : Obligations.DecReadsTheField := by
  intro unit tw start len s
  rw [bitCount_eq_toBits, bitCount_eq_toBits]
  refine ⟨exec_dec_outOfBounds tw s, fun hb => ⟨_, (exec_dec_inBounds tw s hb).trans (congrArg _ (finishDec_eq tw _ s)),
    ?_, ?_, rfl⟩, encodedAs_opcode (.dec unit tw start len)⟩
  · rw [field_eq_extractField]
    exact castTo_toNat tw _
  · simp only [field_eq_zero_iff]
    rfl

/-- A value that fits the target width is its own cast (R9, R73). -/
theorem castTo_of_lt {tw : TargetWidth} {f : Word64} (h : f.toNat < 2 ^ targetBits tw) : castTo tw f = f := by
  apply BitVec.eq_of_toNat_eq
  rw [castTo_toNat, Nat.mod_eq_of_lt h]

/-- Settles O27: the merge into a field of zeros leaves the value in the field, and the cast keeps it. -/
theorem encThenDecReturnsTheValue : Obligations.EncThenDecReturnsTheValue := by
  intro unit signed start len s
  rw [bitCount_eq_toBits, bitCount_eq_toBits]
  intro hb hz hv
  have hclear : overlaps s.mirror (toBits unit start) (toBits unit len) = false := by
    rw [overlaps_eq_field, hz]
    rfl
  refine ⟨_, exec_enc_inBounds signed s hb, fun tw hw => ?_⟩
  refine ⟨_, (exec_dec_inBounds tw _ hb).trans (congrArg _ (finishDec_eq tw _ _)), ?_⟩
  rw [encField_mirror, extractField_overlay _ _ _ _ hclear hv hb]
  exact ⟨castTo_of_lt hw, rfl⟩

/-! ### ENCB and DECB over the payload (R131, R132) -/

/-- Settles O28: the k-th byte written is byte k of the operand, and the bytes around the written ones are kept. -/
theorem encbAssignsLittleEndianBytes : Obligations.EncbAssignsLittleEndianBytes := by
  intro nb s
  refine ⟨exec_encb_outOfBounds, fun hb =>
    ⟨_, exec_encb_inBounds hb, fun i => ?_, advance_toNat s.wcur nb hb, rfl, rfl⟩, encodedAs_opcode (.encb nb)⟩
  rw [finish_payload, writeBytes, memWrite_get]
  split
  · exact byteOf_toNat _ _
  · rfl

/-- At most 7 bytes are read, so that their value fits RESULT (R30, R132). -/
theorem readBytes_lt {nb : Nat} {s : State} (h : s.rcur.toNat + nb ≤ 7) : readBytes nb s < 2 ^ 64 :=
  (memRead_lt s.payload s.rcur.toNat nb).trans_le (Nat.pow_le_pow_right Nat.two_pos (by omega))

theorem finishDecb_result_toNat (nb : Nat) {v : Nat} (h : v < 2 ^ 64) (s : State) :
    (finishDecb nb v s).result.toNat = v := by
  rw [finishDecb_eq]
  exact Nat.mod_eq_of_lt h

/-- The value read fits RESULT, so that judging it is judging RESULT (R132). -/
theorem finishDecb_status (nb : Nat) {v : Nat} (h : v < 2 ^ 64) (s : State) :
    (finishDecb nb v s).status = if (finishDecb nb v s).result = 0 then 0x00000003#32 else 0x00000000#32 := by
  have hz : (finishDecb nb v s).result = 0 ↔ v = 0 := by
    rw [BitVec.toNat_eq, finishDecb_result_toNat nb h]
    rfl
  simp only [hz]
  rw [finishDecb_eq]

/-- Settles O29: the value read is a sum of bytes that fits RESULT. -/
theorem decbReadsLittleEndianBytes : Obligations.DecbReadsLittleEndianBytes := by
  intro nb s
  refine ⟨exec_decb_outOfBounds, fun hb =>
    ⟨_, exec_decb_inBounds hb, ?_, ?_, finishDecb_status nb (readBytes_lt hb) s, ?_⟩, encodedAs_opcode (.decb nb)⟩
  · rw [finishDecb_result_toNat nb (readBytes_lt hb)]
    exact memRead_eq_sum s.payload s.rcur.toNat nb
  · rw [finishDecb_eq]
    exact advance_toNat s.rcur nb hb
  · rw [finishDecb_eq]

/-- A read that begins where the write began gives the low bytes of the value written (R53). -/
theorem readBytes_writeBytes {nb : Nat} {s : State} (v : Nat) (hw : s.wcur.toNat + nb ≤ 7) (hc : s.rcur = s.wcur) :
    readBytes nb (writeBytes nb v s) = v % 2 ^ (8 * nb) := by
  rw [readBytes, writeBytes, hc]
  exact memRead_memWrite s.payload s.wcur.toNat nb v (by omega)

/-- Settles O30: DECB begins where ENCB began, and both advance by NB. -/
theorem encbThenDecbReturnsTheLowBytes : Obligations.EncbThenDecbReturnsTheLowBytes := by
  intro nb s hw hc
  have hr : s.rcur.toNat + nb ≤ 7 := by rwa [hc]
  refine ⟨_, _, exec_encb_inBounds hw, exec_decb_inBounds hr, ?_, ?_, ?_⟩
  · rw [finishDecb_result_toNat nb (by exact readBytes_lt hr)]
    exact readBytes_writeBytes s.opa.toNat hw hc
  · rw [finishDecb_eq]
  · rw [finishDecb_eq]
    exact congrArg (advance · nb) hc

/-! ### The cursors are independent (R133) -/

theorem finishDecb_withWcur (nb v : Nat) (x : BitVec 3) (s : State) :
    finishDecb nb v { s with wcur := x } = { finishDecb nb v s with wcur := x } := by
  rw [finishDecb_eq, finishDecb_eq]

theorem finishQdecb_withWcur (q nb : Nat) (x : BitVec 3) (s : State) :
    finishQdecb q nb { s with wcur := x } = { finishQdecb q nb s with wcur := x } := by
  unfold finishQdecb
  split
  · rfl
  · split <;> rfl

theorem finishQdecb_wcur (q nb : Nat) (s : State) : (finishQdecb q nb s).wcur = s.wcur :=
  (congrArg State.wcur (finishQdecb_withWcur q nb s.wcur s) :)

/-- A command that completes without the read cursor: it keeps RCUR, and does the same whatever RCUR holds. -/
def IgnoresRcur (i : Instr) (s : State) : Prop :=
  ∀ x : BitVec 3, ∃ t : State, exec i s = .next t ∧ t.rcur = s.rcur
    ∧ exec i { s with rcur := x } = .next { t with rcur := x }

/-- A command that completes without the write cursor. -/
def IgnoresWcur (i : Instr) (s : State) : Prop :=
  ∀ x : BitVec 3, ∃ t : State, exec i s = .next t ∧ t.wcur = s.wcur
    ∧ exec i { s with wcur := x } = .next { t with wcur := x }

theorem encb_ignoresRcur (nb : Nat) (s : State) : IgnoresRcur (.encb nb) s := by
  intro x
  rcases Nat.lt_or_ge 7 (s.wcur.toNat + nb) with hb | hb
  · exact ⟨_, exec_encb_outOfBounds hb, rfl, exec_encb_outOfBounds hb⟩
  · exact ⟨_, exec_encb_inBounds hb, rfl, exec_encb_inBounds hb⟩

theorem qencb_ignoresRcur (nb : Nat) (s : State) : IgnoresRcur (.qencb nb) s := by
  intro x
  cases hd : inDomain s.qv s.qmin s.qmax with
  | false => exact ⟨_, exec_qencb_outOfDomain nb hd, rfl, exec_qencb_outOfDomain nb hd⟩
  | true =>
    by_cases hb : nb = 0 ∨ 7 < s.wcur.toNat + nb
    · exact ⟨_, exec_qencb_outOfBounds hd hb, rfl, exec_qencb_outOfBounds hd hb⟩
    · obtain ⟨hn, hw⟩ : nb ≠ 0 ∧ s.wcur.toNat + nb ≤ 7 := by omega
      exact ⟨_, exec_qencb_inBounds hd hn hw, rfl, exec_qencb_inBounds hd hn hw⟩

theorem decb_ignoresWcur (nb : Nat) (s : State) : IgnoresWcur (.decb nb) s := by
  intro x
  rcases Nat.lt_or_ge 7 (s.rcur.toNat + nb) with hb | hb
  · exact ⟨_, exec_decb_outOfBounds hb, rfl, exec_decb_outOfBounds hb⟩
  · refine ⟨_, exec_decb_inBounds hb, by rw [finishDecb_eq],
      (exec_decb_inBounds (s := { s with wcur := x }) hb).trans ?_⟩
    exact congrArg _ (finishDecb_withWcur nb (readBytes nb s) x s)

theorem qdecb_ignoresWcur (nb : Nat) (s : State) : IgnoresWcur (.qdecb nb) s := by
  intro x
  by_cases hb : nb = 0 ∨ 7 < s.rcur.toNat + nb
  · exact ⟨_, exec_qdecb_outOfBounds hb, rfl, exec_qdecb_outOfBounds hb⟩
  · obtain ⟨hn, hr⟩ : nb ≠ 0 ∧ s.rcur.toNat + nb ≤ 7 := by omega
    refine ⟨_, exec_qdecb_inBounds hn hr, finishQdecb_wcur _ _ _,
      (exec_qdecb_inBounds (s := { s with wcur := x }) hn hr).trans ?_⟩
    exact congrArg _ (finishQdecb_withWcur (readBytes nb s) nb x { s with rcur := advance s.rcur nb })

/-- Settles O31: no test and no write of the two encodes sees RCUR, and none of the two decodes sees WCUR. -/
theorem cursorsAreIndependent : Obligations.CursorsAreIndependent := by
  intro nb x s
  constructor
  · intro i hi
    obtain rfl | rfl : i = .encb nb ∨ i = .qencb nb := by simpa using hi
    · exact encb_ignoresRcur nb s x
    · exact qencb_ignoresRcur nb s x
  · intro i hi
    obtain rfl | rfl : i = .decb nb ∨ i = .qdecb nb := by simpa using hi
    · exact decb_ignoresWcur nb s x
    · exact qdecb_ignoresWcur nb s x

/-! ### The configuration and the warnings (R122, R224, R227) -/

/-- The configuration reaches an ENC at its events alone. -/
theorem encWith_withoutDiag (c c' : Config.Params) (unit : FieldUnit) (signed : Bool) (start len : Nat) (s : State) :
    { encWith c unit signed start len s with diag := [] } = { encWith c' unit signed start len s with diag := [] } := by
  unfold encWith
  split
  · rfl
  · rfl

/-- The configuration reaches a QENC at its events alone. -/
theorem qencWith_withoutDiag (c c' : Config.Params) (unit : FieldUnit) (start len : Nat) (s : State) :
    { qencWith c unit start len s with diag := [] } = { qencWith c' unit start len s with diag := [] } := by
  unfold qencWith
  split
  · split <;> rfl
  · rfl

/-- The signed-value mark reaches an ENC at STATUS and its events alone. -/
theorem encWith_withoutReport (c : Config.Params) (unit : FieldUnit) (signed signed' : Bool) (start len : Nat)
    (s : State) :
    { encWith c unit signed start len s with diag := [], status := 0 }
      = { encWith c unit signed' start len s with diag := [], status := 0 } := by
  unfold encWith
  split
  · rfl
  · rfl

/-- Settles O53: neither the configuration nor the mark reaches a register other than STATUS. -/
theorem diagnosticsHaveNoFunctionalEffect : Obligations.DiagnosticsHaveNoFunctionalEffect :=
  fun c c' unit signed start len s =>
    ⟨encWith_withoutDiag c c' unit signed start len s, qencWith_withoutDiag c c' unit start len s, rfl,
      encWith_withoutReport c unit signed false start len s⟩

end Sys2Proof.Machine
end

section
/-! PROOFS. The linear quantizer. Both maps are one rescale, onto `2^l - 1` or `2^(8 NB) - 3` steps, so the rescale's formula,
endpoints, monotonicity and error give those of the maps. Each outcome of the four commands is one equation of exec, and an
encode followed by its decode composes two of them. -/

namespace Sys2Proof.Machine

/-! ### The rescale on an interval, and its steps -/

/-- The rescale on a non-empty interval, as R153 and R154 write it. -/
theorem rescale_eq_ite {v lo hi : ℚ} (steps : Nat) (hlo : lo ≤ v) (hhi : v ≤ hi) :
    (rescale v lo hi steps : ℤ) = if hi = lo then 0 else ⌊(v - lo) * steps / (hi - lo) + 1 / 2⌋ := by
  split
  next h => rw [rescale_of_eq steps h, Nat.cast_zero]
  next h => exact rescale_eq_floor steps hlo (lt_of_le_of_ne (hlo.trans hhi) (Ne.symm h))

/-- The rescale is onto the last step at the upper bound. -/
theorem rescale_hi {lo hi : ℚ} (steps : Nat) (h : lo < hi) : rescale hi lo hi steps = steps := by
  have hd : hi - lo ≠ 0 := (sub_pos.2 h).ne'
  have hf : ⌊(steps : ℚ) + 1 / 2⌋ = (steps : ℤ) := by
    rw [Int.floor_eq_iff, Int.cast_natCast]
    constructor <;> linarith
  have hr := rescale_eq_floor steps h.le h
  rw [mul_div_cancel_left₀ _ hd, hf] at hr
  exact_mod_cast hr

theorem rescale_mono {v w lo hi : ℚ} (steps : Nat) (hvw : v ≤ w) (h : lo ≤ hi) :
    rescale v lo hi steps ≤ rescale w lo hi steps := by
  unfold rescale
  split
  · exact le_rfl
  · have hd : 0 ≤ hi - lo := sub_nonneg.2 h
    refine Int.toNat_le_toNat (Int.floor_le_floor ?_)
    gcongr

theorem one_le_dBit {l : Nat} (h : 1 ≤ l) : 1 ≤ dBit l :=
  Nat.le_sub_of_add_le (Nat.pow_le_pow_right Nat.two_pos h)

theorem two_pow_eight_le {nb : Nat} (h : 1 ≤ nb) : 2 ^ 8 ≤ 2 ^ (8 * nb) :=
  Nat.pow_le_pow_right Nat.two_pos (by omega)

theorem one_le_dByte {nb : Nat} (h : 1 ≤ nb) : 1 ≤ dByte nb := by
  have := two_pow_eight_le h
  unfold dByte
  omega

theorem one_add_dByte {nb : Nat} (h : 1 ≤ nb) : 1 + dByte nb = 2 ^ (8 * nb) - 2 := by
  have := two_pow_eight_le h
  unfold dByte
  omega

/-! ### The two maps (R153, R154, R161) -/

theorem qMapBit_of_pos (v lo hi : ℚ) {l : Nat} (h : 1 ≤ l) : qMapBit v lo hi l = rescale v lo hi (dBit l) :=
  if_neg (Nat.ne_of_gt h)

theorem qMapBit_zero (v lo hi : ℚ) : qMapBit v lo hi 0 = 0 := if_pos rfl

/-- R153's formula. -/
theorem qMapBit_eq {v lo hi : ℚ} (l : Nat) (hlo : lo ≤ v) (hhi : v ≤ hi) :
    (qMapBit v lo hi l : ℤ)
      = if l = 0 ∨ hi = lo then 0 else ⌊(v - lo) * (2 ^ l - 1) / (hi - lo) + 1 / 2⌋ := by
  rcases Nat.eq_zero_or_pos l with rfl | hl
  · rw [qMapBit_zero, if_pos (.inl rfl), Nat.cast_zero]
  · rw [qMapBit_of_pos v lo hi hl, rescale_eq_ite (dBit l) hlo hhi, dBit_cast]
    simp only [Nat.ne_of_gt hl, false_or]

theorem qMapBit_lo (lo hi : ℚ) (l : Nat) : qMapBit lo lo hi l = 0 := by
  rcases Nat.eq_zero_or_pos l with rfl | hl
  · exact qMapBit_zero lo lo hi
  · rw [qMapBit_of_pos lo lo hi hl, rescale_lo]

theorem qMapBit_hi {lo hi : ℚ} (l : Nat) (h : lo < hi) : qMapBit hi lo hi l = 2 ^ l - 1 := by
  rcases Nat.eq_zero_or_pos l with rfl | hl
  · exact qMapBit_zero hi lo hi
  · rw [qMapBit_of_pos hi lo hi hl, rescale_hi _ h, dBit]

theorem qMapBit_mono {v w lo hi : ℚ} (l : Nat) (hvw : v ≤ w) (h : lo ≤ hi) :
    qMapBit v lo hi l ≤ qMapBit w lo hi l := by
  unfold qMapBit
  split
  · exact le_rfl
  · exact rescale_mono _ hvw h

/-- R154's formula. -/
theorem qMapByte_eq {v lo hi : ℚ} {nb : Nat} (hnb : 1 ≤ nb) (hlo : lo ≤ v) (hhi : v ≤ hi) :
    (qMapByte v lo hi nb : ℤ)
      = if hi = lo then 1 else 1 + ⌊(v - lo) * (2 ^ (8 * nb) - 3) / (hi - lo) + 1 / 2⌋ := by
  rw [qMapByte, Nat.cast_add, Nat.cast_one, rescale_eq_ite (dByte nb) hlo hhi, dByte_cast hnb]
  split <;> rfl

theorem one_le_qMapByte (v lo hi : ℚ) (nb : Nat) : 1 ≤ qMapByte v lo hi nb := Nat.le_add_right 1 _

theorem qMapByte_le {v lo hi : ℚ} {nb : Nat} (hnb : 1 ≤ nb) (hlo : lo ≤ v) (hhi : v ≤ hi) :
    qMapByte v lo hi nb ≤ 2 ^ (8 * nb) - 2 :=
  (Nat.add_le_add_left (rescale_le (dByte nb) hlo hhi) 1).trans_eq (one_add_dByte hnb)

theorem qMapByte_lt {v lo hi : ℚ} {nb : Nat} (hnb : 1 ≤ nb) (hlo : lo ≤ v) (hhi : v ≤ hi) :
    qMapByte v lo hi nb < 2 ^ (8 * nb) :=
  (qMapByte_le hnb hlo hhi).trans_lt (Nat.sub_lt (Nat.two_pow_pos _) Nat.two_pos)

theorem qMapByte_lo (lo hi : ℚ) (nb : Nat) : qMapByte lo lo hi nb = 1 := by
  rw [qMapByte, rescale_lo]

theorem qMapByte_hi {lo hi : ℚ} {nb : Nat} (hnb : 1 ≤ nb) (h : lo < hi) :
    qMapByte hi lo hi nb = 2 ^ (8 * nb) - 2 := by
  rw [qMapByte, rescale_hi _ h, one_add_dByte hnb]

/-- Settles O36, by the rescale onto `2^l - 1` steps; for l = 0 both the map and its last step are 0. -/
theorem bitMapFormulaRangeAndEndpoints : Obligations.BitMapFormulaRangeAndEndpoints := fun _ lo hi l hlo hhi =>
  ⟨qMapBit_eq l hlo hhi, Nat.le_sub_one_of_lt (qMapBit_lt l hlo hhi), qMapBit_lo lo hi l, qMapBit_hi l⟩

/-- Settles O37, by the rescale onto `2^(8 NB) - 3` steps, counted from 1. -/
theorem byteMapFormulaRangeAndEndpoints : Obligations.ByteMapFormulaRangeAndEndpoints :=
  fun v lo hi nb hnb _ hlo hhi =>
    ⟨qMapByte_eq hnb hlo hhi, one_le_qMapByte v lo hi nb, qMapByte_le hnb hlo hhi, qMapByte_lo lo hi nb,
      qMapByte_hi hnb⟩

/-- Settles O38: the rescale is monotone in the value. -/
theorem quantizerMapsAreMonotone : Obligations.QuantizerMapsAreMonotone := by
  intro v w lo hi n hlo hvw hhi
  have h : lo ≤ hi := (hlo.trans hvw).trans hhi
  exact ⟨qMapBit_mono n hvw h, Nat.add_le_add_left (rescale_mono (dByte n) hvw h) 1⟩

/-! ### The precision of the decoded value (R160) -/

theorem qUnmapBit_qMapBit_error {v lo hi : ℚ} {l : Nat} (hl : 1 ≤ l) (hlo : lo ≤ v) (h : lo < hi) :
    |qUnmapBit (qMapBit v lo hi l) lo hi l - v| ≤ (hi - lo) / (2 * (2 ^ l - 1)) := by
  have he := unscale_error (dBit l) (one_le_dBit hl) hlo h
  rwa [← qMapBit_of_pos v lo hi hl, ← qUnmapBit, dBit_cast] at he

theorem qUnmapByte_qMapByte_error {v lo hi : ℚ} {nb : Nat} (hnb : 1 ≤ nb) (hlo : lo ≤ v) (h : lo < hi) :
    |qUnmapByte (qMapByte v lo hi nb) lo hi nb - v| ≤ (hi - lo) / (2 * (2 ^ (8 * nb) - 3)) := by
  rw [qUnmapByte, qMapByte, Nat.cast_add, Nat.cast_one, add_sub_cancel_left, ← dByte_cast hnb]
  exact unscale_error (dByte nb) (one_le_dByte hnb) hlo h

/-- Half a step of the bit-range codomain is within the source's precision loss (90_conflicts.md, C8). -/
theorem half_step_le {d : ℚ} (hd : 0 ≤ d) {l : Nat} (hl : 1 ≤ l) : d / (2 * (2 ^ l - 1)) ≤ d / 2 ^ l := by
  have h2 : (2 : ℚ) ^ 1 ≤ 2 ^ l := pow_le_pow_right₀ (by norm_num) hl
  exact div_le_div_of_nonneg_left hd (by positivity) (by linarith)

/-- Settles O39: the rescale is within half a step, and so is the value decoded from it. -/
theorem quantizerPrecision : Obligations.QuantizerPrecision := by
  intro v lo hi h hlo _
  refine ⟨fun l hl => ?_, fun nb hnb => qUnmapByte_qMapByte_error hnb hlo h⟩
  have he := qUnmapBit_qMapBit_error hl hlo h
  exact ⟨he, he.trans (half_step_le (sub_nonneg.2 h.le) hl)⟩

/-! ### QENC over the mirror (R155) -/

theorem inDomain_iff_claim (s : State) : Claim.InDomain s ↔ inDomain s.qv s.qmin s.qmax = true :=
  (inDomain_iff s.qv s.qmin s.qmax).symm

theorem inDomain_eq_false {s : State} (h : ¬ Claim.InDomain s) : inDomain s.qv s.qmin s.qmax = false := by
  rwa [inDomain_iff_claim, Bool.not_eq_true] at h

/-- The merge of a code is the OR of the code times the power of two of its position. -/
theorem overlay_ofNat (m : Word64) (q st : Nat) :
    overlay m (BitVec.ofNat 64 q) st = m ||| BitVec.ofNat 64 (q * 2 ^ st) := by
  rw [overlay]
  congr 1
  apply BitVec.eq_of_toNat_eq
  rw [BitVec.toNat_shiftLeft, BitVec.toNat_ofNat, BitVec.toNat_ofNat, Nat.shiftLeft_eq, Nat.mod_mul_mod]

theorem qencField_mirror (c : Config.Params) (q st ln : Nat) (s : State) :
    (qencField c q st ln s).mirror = overlay s.mirror (BitVec.ofNat 64 q) st :=
  rfl

theorem qencField_status_toNat (c : Config.Params) (q st ln : Nat) (s : State) :
    (qencField c q st ln s).status.toNat = if Claim.field s.mirror st ln ≠ 0 then 2 ^ 17 else 0 := by
  rw [qencField, finish_status, statusWord_ok_toNat, overlaps_eq_field]
  simp

theorem qencField_diag (c : Config.Params) (q st ln : Nat) (s : State) :
    (qencField c q st ln s).diag
      = s.diag ++ (if c.diagActive ∧ Claim.field s.mirror st ln ≠ 0 then [.overlap] else []) := by
  rw [qencField, finish_diag, emitIf_diag, overlaps_eq_field]
  simp only [Bool.and_eq_true, decide_eq_true_eq, and_comm]

/-- Settles O40: the next state of each outcome; in the interval the code is R153's and fits its field. -/
theorem qencStoresTheRescaledValue : Obligations.QencStoresTheRescaledValue := by
  intro unit start len s
  rw [bitCount_eq_toBits, bitCount_eq_toBits]
  refine ⟨fun hd => exec_qenc_outOfDomain unit start len (inDomain_eq_false hd),
    fun hd hb => exec_qenc_outOfBounds ((inDomain_iff_claim s).1 hd) hb, fun hd hb => ?_,
    encodedAs_opcode (.qenc unit start len)⟩
  have hdom := (inDomain_iff_claim s).1 hd
  obtain ⟨-, -, -, hlo, hhi⟩ := hd
  exact ⟨_, _, exec_qenc_inBounds hdom hb, qMapBit_eq _ hlo hhi, qMapBit_lt _ hlo hhi,
    overlay_ofNat _ _ _, qencField_status_toNat _ _ _ _ s, qencField_diag _ _ _ _ s, rfl⟩

/-! ### QDEC over the mirror (R156, R157) -/

section
variable {unit : FieldUnit} {start len : Nat} {s : State} (hb : toBits unit start + toBits unit len ≤ 64)
include hb

theorem exec_qdec_zero (hz : extractField s.mirror (toBits unit start) (toBits unit len) = 0) :
    exec (.qdec unit start len) s = .next (failDecode .ambZero s) := by
  rw [exec_qdec_inBounds hb, finishQdec, if_pos hz]

theorem exec_qdec_outOfDomain (hz : extractField s.mirror (toBits unit start) (toBits unit len) ≠ 0)
    (hf : ¬ (finite s.qmin = true ∧ finite s.qmax = true)) :
    exec (.qdec unit start len) s = .next (failDecode .domain s) := by
  rw [exec_qdec_inBounds hb, finishQdec, if_neg hz, if_neg (by rwa [boundsFinite_iff])]

theorem exec_qdec_finite (hz : extractField s.mirror (toBits unit start) (toBits unit len) ≠ 0)
    (hf : finite s.qmin = true ∧ finite s.qmax = true) :
    exec (.qdec unit start len) s = .next { s with
      qresult := round64 (qUnmapBit (extractField s.mirror (toBits unit start) (toBits unit len)).toNat (val s.qmin)
        (val s.qmax) (toBits unit len))
      status := 0x00000000#32 } := by
  rw [exec_qdec_inBounds hb, finishQdec, if_neg hz, if_pos ((boundsFinite_iff _ _).2 hf)]
  rfl

end

/-- Settles O41, by the equation of each outcome. -/
theorem qdecDequantizesTheField : Obligations.QdecDequantizesTheField := by
  intro unit start len s
  rw [bitCount_eq_toBits, bitCount_eq_toBits]
  refine ⟨exec_qdec_outOfBounds, fun hb hz => exec_qdec_zero hb ((field_eq_zero_iff _ _ _).1 hz),
    fun hb hz => exec_qdec_outOfDomain hb (mt (field_eq_zero_iff _ _ _).2 hz), fun hb hz hmin hmax => ?_,
    encodedAs_opcode (.qdec unit start len)⟩
  rw [exec_qdec_finite hb (mt (field_eq_zero_iff _ _ _).2 hz) ⟨hmin, hmax⟩, field_eq_extractField, qUnmapBit, dBit_cast]
  rfl

/-! ### QENCB over the payload (R158) -/

/-- Settles O42: the next state of each outcome, and byte by byte what the write of R154's code leaves in the payload. -/
theorem qencbStoresTheRescaledValue : Obligations.QencbStoresTheRescaledValue := by
  intro nb s
  refine ⟨fun hd => exec_qencb_outOfDomain nb (inDomain_eq_false hd),
    fun hd hb => exec_qencb_outOfBounds ((inDomain_iff_claim s).1 hd) hb, fun hd hn hb => ?_,
    encodedAs_opcode (.qencb nb)⟩
  have hdom := (inDomain_iff_claim s).1 hd
  obtain ⟨-, -, -, hlo, hhi⟩ := hd
  have hnb : 1 ≤ nb := Nat.pos_of_ne_zero hn
  refine ⟨_, _, exec_qencb_inBounds hdom hn hb, qMapByte_eq hnb hlo hhi,
    one_le_qMapByte _ _ _ _, qMapByte_le hnb hlo hhi, fun i => ?_, advance_toNat s.wcur nb hb, rfl, rfl⟩
  rw [finish_payload, writeBytes, memWrite_get]
  split
  · exact byteOf_toNat _ _
  · rfl

/-! ### QDECB over the payload (R157, R159) -/

theorem finishQdecb_zero (nb : Nat) (s : State) : finishQdecb 0 nb s = failDecode .ambZero s := if_pos rfl

theorem finishQdecb_outOfDomain {q : Nat} (nb : Nat) {s : State} (hq : q ≠ 0)
    (hf : ¬ (finite s.qmin = true ∧ finite s.qmax = true)) : finishQdecb q nb s = failDecode .domain s := by
  rw [finishQdecb, if_neg hq, if_neg (by rwa [boundsFinite_iff])]

theorem finishQdecb_finite {q : Nat} (nb : Nat) {s : State} (hq : q ≠ 0)
    (hf : finite s.qmin = true ∧ finite s.qmax = true) :
    finishQdecb q nb s = { s with
      qresult := round64 (qUnmapByte q (val s.qmin) (val s.qmax) nb), status := 0x00000000#32 } := by
  rw [finishQdecb, if_neg hq, if_pos ((boundsFinite_iff _ _).2 hf)]
  rfl

theorem exec_qdecb_finite {nb : Nat} {s : State} (hn : nb ≠ 0) (hb : s.rcur.toNat + nb ≤ 7) (hq : readBytes nb s ≠ 0)
    (hf : finite s.qmin = true ∧ finite s.qmax = true) :
    exec (.qdecb nb) s = .next { s with
      rcur := advance s.rcur nb
      qresult := round64 (qUnmapByte (readBytes nb s) (val s.qmin) (val s.qmax) nb)
      status := 0x00000000#32 } := by
  rw [exec_qdecb_inBounds hn hb, finishQdecb_finite (s := { s with rcur := advance s.rcur nb }) nb hq hf]

/-- Whatever QDECB makes of the code, it writes QRESULT and STATUS alone. -/
theorem finishQdecb_frame (q nb : Nat) (s : State) :
    finishQdecb q nb s
      = { s with qresult := (finishQdecb q nb s).qresult, status := (finishQdecb q nb s).status } := by
  unfold finishQdecb
  split
  · rfl
  · split <;> rfl

/-- Settles O43: past the bounds test the code is the sum of the bytes read, and one equation per outcome judges it. -/
theorem qdecbDequantizesTheBytes : Obligations.QdecbDequantizesTheBytes := by
  intro nb s
  refine ⟨exec_qdecb_outOfBounds, fun hn hb => ⟨readBytes nb s, _, exec_qdecb_inBounds hn hb,
    memRead_eq_sum s.payload s.rcur.toNat nb, ?_, fun hq => ?_, fun hq hf => ?_, fun hq hmin hmax => ?_, ?_⟩,
    encodedAs_opcode (.qdecb nb)⟩
  · rw [finishQdecb_frame]
    exact advance_toNat s.rcur nb hb
  · rw [hq, finishQdecb_zero]
    exact ⟨rfl, rfl⟩
  · rw [finishQdecb_outOfDomain (s := { s with rcur := advance s.rcur nb }) nb hq hf]
    exact ⟨rfl, rfl⟩
  · rw [finishQdecb_finite (s := { s with rcur := advance s.rcur nb }) nb hq ⟨hmin, hmax⟩,
      ← dByte_cast (Nat.pos_of_ne_zero hn)]
    exact ⟨rfl, rfl⟩
  · rw [finishQdecb_frame]

/-! ### An encode followed by its decode (R160, R260) -/

theorem one_le_toBits (unit : FieldUnit) {n : Nat} (h : 1 ≤ n) : 1 ≤ toBits unit n := by
  cases unit with
  | bits => exact h
  | bytes =>
    rw [toBits_bytes]
    omega

/-- A field of zeros holds, after a QENC, the code stored in it (R155). -/
theorem extractField_qencField (c : Config.Params) {q st ln : Nat} {s : State} (hb : st + ln ≤ 64) (hq : q < 2 ^ ln)
    (hz : Claim.field s.mirror st ln = 0) :
    extractField (qencField c q st ln s).mirror st ln = BitVec.ofNat 64 q := by
  have hclear : overlaps s.mirror st ln = false := by
    rw [overlaps_eq_field, hz]
    rfl
  exact extractField_overlay _ _ _ _ hclear ((Nat.mod_le q _).trans_lt hq) hb

/-- QDEC of the code 0 that a QENC stored is the ambiguous zero (R260). -/
theorem exec_qdec_qencField_zero (c : Config.Params) {unit : FieldUnit} {start len : Nat} {s : State}
    (hb : toBits unit start + toBits unit len ≤ 64)
    (hz : Claim.field s.mirror (toBits unit start) (toBits unit len) = 0) :
    exec (.qdec unit start len) (qencField c 0 (toBits unit start) (toBits unit len) s)
      = .next (failDecode .ambZero (qencField c 0 (toBits unit start) (toBits unit len) s)) :=
  exec_qdec_zero hb (extractField_qencField c hb (Nat.two_pow_pos _) hz)

/-- QDEC of any other code that a QENC stored decodes that code. -/
theorem exec_qdec_qencField (c : Config.Params) {unit : FieldUnit} {start len q : Nat} {s : State}
    (hb : toBits unit start + toBits unit len ≤ 64)
    (hz : Claim.field s.mirror (toBits unit start) (toBits unit len) = 0) (hq : q < 2 ^ toBits unit len) (hq0 : q ≠ 0)
    (hf : finite s.qmin = true ∧ finite s.qmax = true) :
    exec (.qdec unit start len) (qencField c q (toBits unit start) (toBits unit len) s)
      = .next { qencField c q (toBits unit start) (toBits unit len) s with
          qresult := round64 (qUnmapBit q (val s.qmin) (val s.qmax) (toBits unit len)), status := 0x00000000#32 } := by
  have hx := extractField_qencField c hb hq hz
  have hn : (BitVec.ofNat 64 q).toNat = q :=
    Nat.mod_eq_of_lt (hq.trans_le (Nat.pow_le_pow_right Nat.two_pos (by omega)))
  have hx0 : BitVec.ofNat 64 q ≠ 0 := fun h => hq0 (hn.symm.trans (congrArg BitVec.toNat h))
  rw [exec_qdec_finite hb (hx.trans_ne hx0) hf, hx, hn]
  rfl

/-- Settles O44: QDEC reads the code QENC stored; the code 0, which QMIN gives, is the ambiguous zero, and the value decoded
from any other code is within half a step. -/
theorem qencThenQdecIsWithinHalfAStep : Obligations.QencThenQdecIsWithinHalfAStep := by
  intro unit start len s
  rw [bitCount_eq_toBits, bitCount_eq_toBits]
  intro hb hlen hd hlt hz
  have hdom := (inDomain_iff_claim s).1 hd
  obtain ⟨-, hmin, hmax, hlo, hhi⟩ := hd
  have henc := exec_qenc_inBounds hdom hb
  by_cases h0 : qMapBit (val s.qv) (val s.qmin) (val s.qmax) (toBits unit len) = 0
  · rw [h0] at henc
    have hx := extractField_qencField Config.platform hb (Nat.two_pow_pos _) hz
    exact ⟨_, _, henc, exec_qdec_qencField_zero _ hb hz, .inr ⟨(field_eq_zero_iff _ _ _).2 hx, rfl, rfl⟩,
      fun _ => ⟨rfl, rfl⟩⟩
  · refine ⟨_, _, henc, exec_qdec_qencField _ hb hz (qMapBit_lt _ hlo hhi) h0 ⟨hmin, hmax⟩,
      .inl ⟨_, rfl, rfl, qUnmapBit_qMapBit_error (one_le_toBits unit hlen) hlo hlt⟩, fun he => ?_⟩
    rw [he, qMapBit_lo] at h0
    exact absurd rfl h0

/-- QDECB reads back, at the same cursor, a code that fits the bytes QENCB wrote (R158, R159). -/
theorem readBytes_finish_writeBytes {nb q : Nat} {s : State} (hw : s.wcur.toNat + nb ≤ 7) (hc : s.rcur = s.wcur)
    (hq : q < 2 ^ (8 * nb)) : readBytes nb (finish false false false (writeBytes nb q s)) = q :=
  (readBytes_writeBytes q hw hc).trans (Nat.mod_eq_of_lt hq)

/-- Settles O45: QDECB reads the code QENCB wrote, which is never the sentinel 0, and its decoded value is within half a
step. -/
theorem qencbThenQdecbIsWithinHalfAStep : Obligations.QencbThenQdecbIsWithinHalfAStep := by
  intro nb s hn hw hc hd hlt
  have hdom := (inDomain_iff_claim s).1 hd
  obtain ⟨-, hmin, hmax, hlo, hhi⟩ := hd
  have hnb : 1 ≤ nb := Nat.pos_of_ne_zero hn
  have hr : s.rcur.toNat + nb ≤ 7 := by rwa [hc]
  have hread := readBytes_finish_writeBytes hw hc (qMapByte_lt hnb hlo hhi)
  have hq0 := hread.trans_ne (Nat.ne_of_gt (one_le_qMapByte _ _ _ _))
  refine ⟨_, _, _, exec_qencb_inBounds hdom hn hw,
    exec_qdecb_finite hn hr hq0 ⟨hmin, hmax⟩, rfl, rfl, ?_⟩
  rw [hread]
  exact qUnmapByte_qMapByte_error hnb hlo hlt

end Sys2Proof.Machine
end

section
/-! PROOFS. The error subfield. The policy table of the model is the one of the claims, so that the code read and the code left
in the field are the claims' numbers; SETERR then is one replacement of a field that fits the mirror, and both commands are
functions of the kind, the stored code and OPA's low byte. -/

namespace Sys2Proof.Machine

/-! ### The policy table in the terms of the claims (R180, R182) -/

theorem policyRow_pos (c : Config.Params) (k : Config.Kind) : (policyRow c k).pos = Claim.errorPos c k := by
  cases k <;> rfl

theorem policyRow_width (c : Config.Params) (k : Config.Kind) : (policyRow c k).width = Claim.errorWidth k := by
  cases k <;> rfl

theorem policyRow_setOnce_iff (c : Config.Params) (k : Config.Kind) :
    (policyRow c k).policy = .setOnce ↔ k = .defaultKind := by
  cases k <;> simp [policyRow]

theorem clampCode_eq_min (width req : Nat) : clampCode width req = min req (2 ^ width - 1) := by
  unfold clampCode
  split <;> omega

theorem newCode_policyRow (c : Config.Params) (k : Config.Kind) (req cur : Nat) :
    newCode (policyRow c k) req cur = Claim.codeAfter k req cur := by
  simp only [newCode, Claim.codeAfter, policyRow_setOnce_iff, clampCode_eq_min, policyRow_width]

/-! ### The code stored and the code left by SETERR -/

theorem lowByte_toNat (v : Word64) : (lowByte v).toNat = v.toNat % 256 := BitVec.toNat_setWidth 8 v

/-- The error field of a frame whose kind is `k` holds the stored code. -/
theorem field_eq_storedCode {c : Config.Params} {s : State} {k : Config.Kind} (hk : c.messageKindOf s.id = k) :
    Claim.field s.mirror (Claim.errorPos c k) (Claim.errorWidth k) = storedCode c s := by
  rw [storedCode, errorRow, kindOf, hk, policyRow_pos, policyRow_width, field_eq_extractField]

theorem requestedCode_eq_codeAfter {c : Config.Params} {s : State} {k : Config.Kind} (hk : c.messageKindOf s.id = k) :
    requestedCode c s = Claim.codeAfter k (s.opa.toNat % 256) (storedCode c s) := by
  rw [requestedCode, errorRow, kindOf, hk, newCode_policyRow, lowByte_toNat]

theorem requestedCode_lt (c : Config.Params) (s : State) : requestedCode c s < 2 ^ (errorRow c s).width := by
  apply newCode_lt
  rw [storedCode_eq]
  exact Nat.mod_lt _ (Nat.two_pow_pos _)

/-! ### GETERR and SETERR (R183, R184) -/

/-- Settles O46: the field of the kind's row is the claim's. -/
theorem getErrReadsTheErrorField : Obligations.GetErrReadsTheErrorField := by
  refine ⟨fun s => ?_, encodedExactlyAs_opcode (i := .getErr) rfl⟩
  rw [field_eq_storedCode rfl]
  rfl

theorem setErrWith_mirror_getLsbD (c : Config.Params) (s : State) {j : Nat} (hj : j < 64) :
    (setErrWith c s).mirror.getLsbD j
      = if (errorRow c s).pos ≤ j ∧ j < (errorRow c s).pos + (errorRow c s).width
        then (requestedCode c s).testBit (j - (errorRow c s).pos) else s.mirror.getLsbD j :=
  replaceField_getLsbD _ _ _ _ _ (requestedCode_lt c s) hj

/-- The STATUS of a command that ends OK with the flag CHANGED alone (R29). -/
theorem statusWord_ok_changed (changed : Bool) :
    statusWord .ok changed false false = if changed then 0x00000100 else 0x00000000 := by
  cases changed <;> rfl

theorem setErrWith_status (c : Config.Params) (s : State) :
    (setErrWith c s).status = if requestedCode c s ≠ storedCode c s then 0x00000100 else 0x00000000 := by
  simp only [setErrWith, finish_status, statusWord_ok_changed, decide_eq_true_eq]

/-- After SETERR the error field holds the code it was given. -/
theorem field_setErrWith {c : Config.Params} {s : State} {k : Config.Kind} (hk : c.messageKindOf s.id = k) :
    Claim.field (setErrWith c s).mirror (Claim.errorPos c k) (Claim.errorWidth k) = requestedCode c s := by
  rw [field_eq_storedCode (s := setErrWith c s) hk]
  have hfit : (errorRow c s).pos + (errorRow c s).width ≤ 64 := policyRow_fits c _
  have hlt : requestedCode c s < 2 ^ 64 :=
    (requestedCode_lt c s).trans_le (Nat.pow_le_pow_right Nat.two_pos (by omega))
  have hfield := extractField_replaceField s.mirror _ _ _ (requestedCode_lt c s) hfit
  exact (congrArg BitVec.toNat hfield).trans (Nat.mod_eq_of_lt hlt)

/-- Settles O47: SETERR is one replacement of the field, and the policy's code fits it. -/
theorem setErrReplacesTheErrorField : Obligations.SetErrReplacesTheErrorField := by
  refine ⟨fun s => ⟨setErrWith Config.platform s, _, _, requestedCode Config.platform s, rfl, rfl, rfl, ?_, fun j hj => ?_,
    rfl, ?_, rfl⟩, encodedExactlyAs_opcode (i := .setErr) rfl⟩
  · rw [field_eq_storedCode rfl, requestedCode_eq_codeAfter rfl]
  · rw [setErrWith_mirror_getLsbD _ _ hj, errorRow, kindOf, policyRow_pos, policyRow_width]
  · rw [field_eq_storedCode rfl, setErrWith_status]

/-! ### Set-once and the clamp (R185) -/

/-- A SETERR that leaves the code in place changes RESULT and STATUS alone. -/
theorem setErrWith_of_code_kept {c : Config.Params} {s : State} (h : requestedCode c s = storedCode c s) :
    setErrWith c s = { s with result := BitVec.ofNat 64 (storedCode c s), status := 0x00000000#32 } := by
  have hmirror : replaceField s.mirror (errorRow c s).pos (errorRow c s).width (storedCode c s) = s.mirror :=
    replaceField_extractField _ _ _
  rw [setErrWith, h, hmirror, decide_eq_false (not_not_intro rfl)]
  rfl

theorem requestedCode_setOnce {c : Config.Params} {s : State} (hk : c.messageKindOf s.id = .defaultKind)
    (h : storedCode c s ≠ 0) : requestedCode c s = storedCode c s := by
  rw [requestedCode_eq_codeAfter hk, Claim.codeAfter, if_pos ⟨rfl, h⟩]

theorem requestedCode_currentSensor {c : Config.Params} {s : State} (hk : c.messageKindOf s.id = .currentSensor) :
    requestedCode c s = min (s.opa.toNat % 256) 7 :=
  requestedCode_eq_codeAfter hk

/-- On a current-sensor frame SETERR leaves the requested code, clamped to 7, in RESULT and in mirror bits 58..56. -/
theorem setErrWith_currentSensor {c : Config.Params} {s : State} (hk : c.messageKindOf s.id = .currentSensor) :
    (setErrWith c s).result = BitVec.ofNat 64 (min (s.opa.toNat % 256) 7)
      ∧ Claim.field (setErrWith c s).mirror 56 3 = min (s.opa.toNat % 256) 7 := by
  rw [← requestedCode_currentSensor hk]
  exact ⟨rfl, field_setErrWith hk⟩

/-- Settles O48: a set-once code is the code SETERR asks for, and the clamp to three bits takes 9 to 7 and 5 to 5. -/
theorem setOnceAndClamp : Obligations.SetOnceAndClamp := by
  refine ⟨fun _ => rfl, fun c s => ⟨fun hk hcur => ?_, fun hk ha => ?_, fun hk ha => ?_⟩⟩
  · have hfield : Claim.field s.mirror 0 8 = storedCode c s := field_eq_storedCode hk
    rw [hfield] at hcur ⊢
    exact setErrWith_of_code_kept (requestedCode_setOnce hk hcur)
  · have h := setErrWith_currentSensor hk
    rwa [ha] at h
  · have h := setErrWith_currentSensor hk
    rwa [ha] at h

/-! ### What GETERR and SETERR depend on (R186) -/

/-- Settles O49: RESULT, STATUS and the field are given by the stored code and the code SETERR leaves, and that one by the
kind, OPA's low byte and the stored code. -/
theorem errorSubfieldIsPure : Obligations.ErrorSubfieldIsPure := by
  intro c s s' hk hopa hcur
  rw [field_eq_storedCode rfl, field_eq_storedCode hk.symm] at hcur
  have hnew : requestedCode c s = requestedCode c s' := by
    rw [requestedCode_eq_codeAfter hk, requestedCode_eq_codeAfter rfl, hopa, hcur]
  refine ⟨congrArg (BitVec.ofNat 64) hcur, rfl, congrArg (BitVec.ofNat 64) hnew, ?_, ?_⟩
  · rw [setErrWith_status, setErrWith_status, hnew, hcur]
  · rw [field_setErrWith rfl, field_setErrWith hk.symm, hnew]

end Sys2Proof.Machine
end

section
/-! PROOFS. The frame-header packer. The first encode leaves bits 60..59 as they stood, so that the two overlap tests are one
test of the five bits 63..59; and a byte shifted to bit 61 or 59 reaches the mirror with its low bits alone. -/

namespace Sys2Proof.Machine

/-! ### Overlap tests of adjacent fields and of mirrors that agree (R124) -/

theorem overlaps_congr {m m' : Word64} {s l : Nat}
    (h : ∀ j, s ≤ j → j < s + l → m.getLsbD j = m'.getLsbD j) : overlaps m s l = overlaps m' s l := by
  rw [← Bool.not_inj_iff, ← Bool.coe_false_iff_false, overlaps_eq_false_iff, overlaps_eq_false_iff]
  exact forall_congr' fun j => forall₂_congr fun hs hl => by rw [h j hs hl]

/-- A field made of two adjacent ones is clear when both of them are. -/
theorem overlaps_append (m : Word64) (s k l : Nat) :
    overlaps m s (k + l) = (overlaps m s k || overlaps m (s + k) l) := by
  rw [← Bool.not_inj_iff, ← Bool.coe_false_iff_false, Bool.or_eq_false_iff]
  simp only [overlaps_eq_false_iff]
  constructor
  · exact fun h => ⟨fun j hs hl => h j hs (by omega), fun j hs hl => h j (by omega) (by omega)⟩
  · rintro ⟨hlow, hhigh⟩ j hs hl
    by_cases hj : j < s + k
    · exact hlow j hs hj
    · exact hhigh j (by omega) (by omega)

/-! ### The two encodes of HDR (R201) -/

theorem lowByte_setWidth_getLsbD (v : Word64) {k : Nat} (hk : k < 8) :
    ((lowByte v).setWidth 64).getLsbD k = v.getLsbD k := by
  rw [lowByte, BitVec.getLsbD_setWidth, BitVec.getLsbD_setWidth, decide_eq_true hk, decide_eq_true (by omega : k < 64),
    Bool.true_and, Bool.true_and]

/-- Bit j of the merge of a byte that is shifted so far that only its low bits reach the mirror. -/
theorem overlay_lowByte_getLsbD (m v : Word64) {p j : Nat} (hp : 56 ≤ p) (hj : j < 64) :
    (overlay m ((lowByte v).setWidth 64) p).getLsbD j = (m.getLsbD j || (decide (p ≤ j) && v.getLsbD (j - p))) := by
  rw [overlay_getLsbD _ _ _ _ hj, lowByte_setWidth_getLsbD v (by omega)]

theorem hdrFirst_getLsbD (s : State) {j : Nat} (hj : j < 64) :
    (hdrFirst s).getLsbD j = (s.mirror.getLsbD j || (decide (61 ≤ j) && s.opa.getLsbD (j - 61))) :=
  overlay_lowByte_getLsbD _ _ (by decide) hj

theorem hdrWith_mirror_getLsbD (c : Config.Params) (s : State) {j : Nat} (hj : j < 64) :
    (hdrWith c s).mirror.getLsbD j
      = (s.mirror.getLsbD j || (decide (61 ≤ j) && s.opa.getLsbD (j - 61))
        || (decide (59 ≤ j) && s.opb.getLsbD (j - 59))) := by
  rw [← hdrFirst_getLsbD s hj]
  exact overlay_lowByte_getLsbD _ _ (by decide) hj

/-! ### The overlap warning of HDR (R201, R227) -/

/-- The first encode writes no bit below 61, so that the second test is one of the mirror as it stood. -/
theorem overlaps_hdrFirst (s : State) : overlaps (hdrFirst s) 59 2 = overlaps s.mirror 59 2 :=
  overlaps_congr fun j _ hj => by
    rw [hdrFirst_getLsbD s (by omega), decide_eq_false (by omega : ¬ 61 ≤ j), Bool.false_and, Bool.or_false]

theorem hdrOverlap_eq_field (s : State) : hdrOverlap s = decide (Claim.field s.mirror 59 5 ≠ 0) := by
  rw [hdrOverlap, overlaps_hdrFirst, Bool.or_comm, ← overlaps_append, overlaps_eq_field]

theorem hdrWith_status_toNat (c : Config.Params) (s : State) :
    (hdrWith c s).status.toNat = if Claim.field s.mirror 59 5 ≠ 0 then 2 ^ 17 else 0 := by
  rw [hdrWith, finish_status, statusWord_ok_toNat, hdrOverlap_eq_field]
  simp

theorem hdrWith_diag (c : Config.Params) (s : State) :
    (hdrWith c s).diag = s.diag ++ (if c.diagActive ∧ Claim.field s.mirror 59 5 ≠ 0 then [.overlap] else []) := by
  rw [hdrWith, finish_diag, emitIf_diag, hdrOverlap_eq_field]
  simp only [Bool.and_eq_true, decide_eq_true_eq, and_comm]

/-- Settles O50: the two merges bit by bit, and the two overlap tests as one. -/
theorem hdrPacksTheHeader : Obligations.HdrPacksTheHeader :=
  ⟨fun s => ⟨hdrWith Config.platform s, rfl, fun _ hj => hdrWith_mirror_getLsbD _ s hj, hdrWith_status_toNat _ s,
    hdrWith_diag _ s, rfl⟩, encodedExactlyAs_opcode (i := .hdr) rfl⟩

end Sys2Proof.Machine
end

section
/-! PROOFS. The exceptions. A command ends OK or in one of three failures, whose next states are said once; the events it appends
are read off the STATUS word that its ending writes. -/

namespace Sys2Proof.Machine

/-! ### What a failure leaves (R222) -/

/-- The next states of a failing command: `Fails s i t` says that `t` is what `i`, begun in `s`, may leave when it fails.
A command that reads at RCUR reports BOUNDS before the read, and DOMAIN and AMBZERO after it. -/
inductive Fails (s : State) (i : Instr) : State → Prop
  | bounds : Fails s i { s with
      status := 0x00000001#32, qresult := if Claim.mayWriteQresult i then Config.nvReal else s.qresult }
  | domain {c : BitVec 3} (hc : c.toNat = s.rcur.toNat + Claim.readCount i) : Fails s i { s with
      status := 0x00000002#32, rcur := c
      qresult := if Claim.mayWriteQresult i then Config.nvReal else s.qresult }
  | ambZero {c : BitVec 3} (hc : c.toNat = s.rcur.toNat + Claim.readCount i) : Fails s i { s with
      status := 0x00000003#32, rcur := c
      mirror := if i = .toMir then 0 else s.mirror
      result := if Claim.mayWriteResult i then 0 else s.result
      qresult := if Claim.mayWriteQresult i then Config.nvReal else s.qresult }

theorem castTo_zero (tw : TargetWidth) : castTo tw 0 = 0 := by
  cases tw <;> rfl

/-- A command that judges a decoded value is OK or fails with AMBZERO, and that only when the value is zero. -/
theorem finishUnlessZero_ok_or_fails {s u : State} {i : Instr} {z : Bool} (h : z = true → Fails s i (raise .ambZero u)) :
    statusCode (finishUnlessZero z u).status = 0 ∨ Fails s i (finishUnlessZero z u) := by
  cases z with
  | false => exact .inl rfl
  | true => exact .inr (h rfl)

theorem fails_toMir {s : State} (hz : mirrorOf s.payload = 0) :
    Fails s .toMir (raise .ambZero { s with mirror := mirrorOf s.payload }) := by
  rw [hz]
  exact .ambZero rfl

theorem fails_dec (u : FieldUnit) (tw : TargetWidth) (st ln : Nat) {f : Word64} (hz : f = 0) (s : State) :
    Fails s (.dec u tw st ln) (raise .ambZero { s with result := castTo tw f }) := by
  rw [hz, castTo_zero]
  exact .ambZero rfl

theorem fails_decb {nb v : Nat} {s : State} (hb : s.rcur.toNat + nb ≤ 7) (hz : v = 0) :
    Fails s (.decb nb) (raise .ambZero { s with rcur := advance s.rcur nb, result := BitVec.ofNat 64 v }) := by
  rw [hz]
  exact .ambZero (advance_toNat s.rcur nb hb)

/-- Every outcome of a command is OK or one of the failures. -/
theorem Completes.ok_or_fails {i : Instr} {s t : State} : Completes s i t → statusCode t.status = 0 ∨ Fails s i t
  | .new | .load | .fromMir | .encb _ | .qencb .. | .qdec .. | .qdecb .. | .getErr => .inl rfl
  | .enc _ | .qenc .. | .setErr | .hdr => .inl (statusCode_statusWord .ok _ _ _)
  | .toMir => finishUnlessZero_ok_or_fails fun hz => fails_toMir (of_decide_eq_true hz)
  | .dec _ => finishUnlessZero_ok_or_fails fun hz => fails_dec _ _ _ _ (of_decide_eq_true hz) s
  | .decb hb => finishUnlessZero_ok_or_fails fun hz => fails_decb hb (of_decide_eq_true hz)
  | .encBounds _ | .decBounds _ | .encbBounds _ | .decbBounds _ | .qencBounds .. | .qencbBounds .. | .qdecBounds _
  | .qdecbBounds _ => .inr .bounds
  | .qencDomain _ | .qencbDomain _ | .qdecDomain .. => .inr (.domain rfl)
  | .qdecZero .. => .inr (.ambZero rfl)
  | .qdecbDomain _ hb _ _ => .inr (.domain (advance_toNat s.rcur _ hb))
  | .qdecbZero _ hb _ => .inr (.ambZero (advance_toNat s.rcur _ hb))

/-- Settles O51: the code of STATUS tells OK and the three failures apart. -/
theorem failuresChangeOnlyWhatTheyMay : Obligations.FailuresChangeOnlyWhatTheyMay := by
  intro i s t h
  obtain hok | hfail := (completes_of_exec h).ok_or_fails
  · rw [hok]
    exact ⟨nofun, nofun, nofun⟩
  · cases hfail with
    | bounds => exact ⟨fun _ => rfl, nofun, nofun⟩
    | domain hc => exact ⟨nofun, fun _ => ⟨hc, rfl⟩, nofun⟩
    | ambZero hc => exact ⟨nofun, nofun, fun _ => ⟨hc, rfl⟩⟩

/-! ### The events of a command (R224, R226, R227) -/

/-- From `s` to `t` the events appended are those of the warning flags of `t`. -/
def ReportsItsWarnings (c : Config.Params) (s t : State) : Prop :=
  t.diag = s.diag ++ (if c.diagActive then
      (if statusSigned t.status then [.signed] else []) ++ (if statusOverlap t.status then [.overlap] else [])
    else [])

/-- An ending without warnings, in a state where nothing has been emitted. -/
theorem reports_of_silent (c : Config.Params) {s t : State} {k : Code} {changed : Bool} (hd : t.diag = s.diag)
    (hs : t.status = statusWord k changed false false) : ReportsItsWarnings c s t := by
  rw [ReportsItsWarnings, hs, statusSigned_statusWord, statusOverlap_statusWord, hd]
  simp

theorem reports_finishUnlessZero (c : Config.Params) (z : Bool) {s u : State} (hd : u.diag = s.diag) :
    ReportsItsWarnings c s (finishUnlessZero z u) := by
  cases z with
  | false => exact reports_of_silent c hd (finish_status false false false u)
  | true => exact reports_of_silent c hd (raise_status .ambZero u)

/-- The ending of an encode: its overlap warning comes after its signed-value warning, if there is one (R125, R227). -/
theorem reports_finish_emitIf (c : Config.Params) {signed : Bool} (overlap : Bool) {s u : State}
    (hd : u.diag = s.diag ++ (if signed && c.diagActive then [.signed] else [])) :
    ReportsItsWarnings c s (finish false signed overlap (emitIf c overlap .overlap u)) := by
  rw [ReportsItsWarnings, finish_status, statusSigned_statusWord, statusOverlap_statusWord, finish_diag, emitIf_diag, hd]
  cases c.diagActive <;> simp

/-- Whatever its outcome, a command reports the warnings of its STATUS word. -/
theorem Completes.reports {i : Instr} {s t : State} :
    Completes s i t → ReportsItsWarnings Config.platform s t
  | .new | .load | .fromMir | .encb _ | .qencb .. | .qdec .. | .qdecb .. | .getErr | .setErr | .encBounds _ | .decBounds _
  | .encbBounds _ | .decbBounds _ | .qencDomain _ | .qencBounds .. | .qencbDomain _ | .qencbBounds .. | .qdecZero ..
  | .qdecDomain .. | .qdecBounds _ | .qdecbZero .. | .qdecbDomain .. | .qdecbBounds _ => reports_of_silent _ rfl rfl
  | .toMir | .dec _ | .decb _ => reports_finishUnlessZero _ _ rfl
  | .enc _ => reports_finish_emitIf _ _ rfl
  | .qenc .. | .hdr => reports_finish_emitIf _ _ (List.append_nil _).symm

theorem Fails.diag {i : Instr} {s t : State} (h : Fails s i t) : t.diag = s.diag := by
  cases h <;> rfl

/-- Settles O52: each outcome reports its warnings, and a failure emits nothing. -/
theorem eventsAreThoseOfTheWarningFlags : Obligations.EventsAreThoseOfTheWarningFlags := fun _ _ _ h =>
  have hc := completes_of_exec h
  ⟨hc.reports, fun hfail => (hc.ok_or_fails.resolve_left hfail).diag⟩

end Sys2Proof.Machine
end

section
/-! PROOFS. Reset and hazards. The reset input is one host action, which writes every register and keeps the model's own ports.
A merge sets mirror bits and clears none, so that of the commands that do not replace the whole mirror only SETERR can clear
one, and that in its field alone. -/

namespace Sys2Proof.Machine

/-! ### The reset input (R250) -/

theorem perform_reset (s : State) : perform .reset s = .next (resetRegisters s) := rfl

/-- Settles O14: the step performs the reset input, and the queue it leaves is the rest. -/
theorem resetInputRestoresEveryRegister : Obligations.ResetInputRestoresEveryRegister := fun s rest h =>
  (step_of_inputs h).trans (perform_reset { s with inputs := rest })

/-! ### What clears a mirror bit (R123, R256) -/

theorem overlay_keeps_set {m : Word64} {j : Nat} (h : m.getLsbD j = true) (v : Word64) (p : Nat) :
    (overlay m v p).getLsbD j = true := by
  rw [overlay, BitVec.getLsbD_or, h, Bool.true_or]

/-- Bit `j` of the mirror lies in the error field of a frame whose kind is `k` (R180). -/
def InErrorField (c : Config.Params) (k : Config.Kind) (j : Nat) : Prop :=
  Claim.errorPos c k ≤ j ∧ j < Claim.errorPos c k + Claim.errorWidth k

/-- SETERR changes no mirror bit outside the error field of the frame's kind (R184). -/
theorem setErrWith_mirror_outside {c : Config.Params} {s : State} {j : Nat} (hj : j < 64)
    (h : ¬ InErrorField c (c.messageKindOf s.id) j) : (setErrWith c s).mirror.getLsbD j = s.mirror.getLsbD j := by
  rw [setErrWith_mirror_getLsbD c s hj, errorRow, kindOf, policyRow_pos, policyRow_width]
  exact if_neg h

/-- A set mirror bit stays set unless a command replaces the whole mirror, or is SETERR and the bit lies in its field. -/
theorem Completes.mirror_keeps_set {i : Instr} {s t : State} {j : Nat} (h : Completes s i t)
    (hi : Claim.replacesMirror i = false)
    (hfield : ¬ (i = .setErr ∧ InErrorField Config.platform (Config.platform.messageKindOf s.id) j))
    (hj : s.mirror.getLsbD j = true) : t.mirror.getLsbD j = true := by
  cases h with
  | new | load | toMir => cases hi
  | enc | qenc => exact overlay_keeps_set hj _ _
  | hdr => exact overlay_keeps_set (overlay_keeps_set hj _ _) _ _
  | setErr =>
    rw [setErrWith_mirror_outside (BitVec.lt_of_getLsbD hj) fun hin => hfield ⟨rfl, hin⟩]
    exact hj
  | dec => rw [finishDec_eq]; exact hj
  | decb => rw [finishDecb_eq]; exact hj
  | _ => exact hj

/-- Settles O57: a bit that was cleared did not stay set, so the command is SETERR and the bit is in its field. -/
theorem encodesNeverClearMirrorBits : Obligations.EncodesNeverClearMirrorBits := by
  intro i s t j h hi hset hclear
  by_contra hfield
  exact absurd ((completes_of_exec h).mirror_keeps_set hi hfield hset) (ne_true_of_eq_false hclear)

end Sys2Proof.Machine
end
